-- ==== Sys2Proof/Word.lean ====
section
/-! DEFINITION. Word.lean: the values of the block. A limb is 64 bits, an operand port is 256 bits, a 4-limb value is
four limbs, least-significant first (spec/00_scope.md R5, R7). -/

namespace Sys2Proof

/-- A limb: one 64-bit unsigned chunk (R5 `W = 64`, R7). -/
abbrev Limb := BitVec 64

/-- The value on a 256-bit operand or result port (R5, R42). -/
abbrev Wide := BitVec 256

/-- A limb index `i` in 0..3, two bits wide, so that no index is out of range (R30). -/
abbrev LimbIx := Fin 4

/-- Four like things indexed by limb, `l0` the least-significant (R7): a 4-limb value is a `Quad Limb`, a register of
four limbs each of which may hold no value is a `Quad (Option Limb)`. -/
structure Quad (α : Type) where
  l0 : α
  l1 : α
  l2 : α
  l3 : α
  deriving DecidableEq, Repr

/-- The same thing at all four limbs. -/
def Quad.fill {α : Type} (v : α) : Quad α := ⟨v, v, v, v⟩

end Sys2Proof
end

