-- ==== Sys2Proof/Config.lean ====
section
/-! DEFINITION. Config.lean: what is fixed for every instance of the block, spec/00_scope.md R5. None of it is
configurable. The one open parameter of the spec, the clock cycles a step takes (`T_STEP`, R127), has no place in a model
that counts steps. -/

namespace Sys2Proof.Config

/-- The modulus limbs `P[0..3]`, least-significant first (R5, R13; conflict C1: the list of the source's section 8). -/
def modulus : Quad Limb :=
  ⟨0x43e1f593f0000001#64, 0x2833e84879b97091#64, 0xb85045b68181585d#64, 0x30644e72e131a029#64⟩

/-- The modulus `p` as one number (R5; conflict C1: the literal of the source's section 3). -/
def p : Nat := 0x30644e72e131a029b85045b68181585d2833e84879b9709143e1f593f0000001

end Sys2Proof.Config
end

