-- ==== Sys2Proof/Syntax.lean ====
section
/-! DEFINITION. Syntax.lean: the instructions, one constructor per row of spec/opcode_table.json: the four commands the
host issues (spec/30_encoding.md R44) and the seven micro-operations that a command is made of (R48). -/

namespace Sys2Proof

/-- A command code, the two bits `OP` (R44). All four values are defined (R49). -/
inductive Op where
  | subct
  | bchain
  | cmadd
  | subbr
  deriving DecidableEq, Repr

/-- An instruction. A command carries what one request transfers: both operands and the flag operand, used or ignored
(R43, R46). A micro-operation carries its limb index where its kind has one (R47). The micro-operation codes no
microprogram uses are left out, as R49 asks. -/
inductive Instr where
  /-- `SUBCT`, constant-time modular subtraction (R79). -/
  | subct (x y : Wide) (fin : Bool)
  /-- `BCHAIN`, the borrow chain alone (R68). -/
  | bchain (x y : Wide) (fin : Bool)
  /-- `CMADD`, the masked add-back alone (R74). -/
  | cmadd (x y : Wide) (fin : Bool)
  /-- `SUBBR`, the branching reference (R87). -/
  | subbr (x y : Wide) (fin : Bool)
  /-- `SBB i`, one limb of the borrow chain (R58). -/
  | sbb (i : LimbIx)
  /-- `B2M`, the mask from the flag (R59). -/
  | b2m
  /-- `AND i`, read modulus limb `i` and mask it (R60). -/
  | and (i : LimbIx)
  /-- `ADC i`, one limb of the masked add-back (R61). -/
  | adc (i : LimbIx)
  /-- `ADCP i`, one limb of the unmasked add-back (R62). -/
  | adcp (i : LimbIx)
  /-- `BR`, branch on the final borrow (R86). -/
  | br
  /-- `END`, finish the command (R63). -/
  | endOp
  deriving DecidableEq, Repr

/-- The instruction that issues command code `o` with the given port values. -/
def Op.instr (o : Op) (x y : Wide) (fin : Bool) : Instr :=
  match o with
  | .subct => .subct x y fin
  | .bchain => .bchain x y fin
  | .cmadd => .cmadd x y fin
  | .subbr => .subbr x y fin

end Sys2Proof
end

