-- ==== Sys2Proof/Machine/State.lean ====
section
/-! DEFINITION. Machine/State.lean: the state of the block, spec/10_state.md R10 to R25, the record of events the model
keeps (R23), and the host's side of the ports (spec/30_encoding.md R42). "No value" is the spec's own state of a register,
written `none` (R20). The modulus is a constant and no state (R10, R13); the block has no writable memory (R30, R31). -/

namespace Sys2Proof.Machine

/-- An event of the trace, one per micro-step; it carries the kind, the limb index and, for `BR`, the direction taken, and
no operand value (R23). -/
inductive Event where
  | sbb (i : LimbIx)
  | b2m
  | and (i : LimbIx)
  | adc (i : LimbIx)
  | adcp (i : LimbIx)
  | br (taken : Bool)
  | endOp
  deriving DecidableEq, Repr

/-- What the host drives on the input ports during one step: `rst`, `req_valid`, `req_op`, `req_x`, `req_y` and `req_fin`
(R42). `clk` is left out, since no rule counts clock edges (R127). -/
structure PortsIn where
  rst : Bool
  reqValid : Bool
  reqOp : BitVec 2
  reqX : Wide
  reqY : Wide
  reqFin : Bool
  deriving DecidableEq, Repr

/-- Ports on which the host asks for nothing. -/
def PortsIn.quiet : PortsIn :=
  { rst := false, reqValid := false, reqOp := 0#2, reqX := 0#256, reqY := 0#256, reqFin := false }

/-- A register, or one limb of one, that may hold no value (R20). -/
inductive Reg where
  | x (i : LimbIx)
  | y (i : LimbIx)
  | z (i : LimbIx)
  | m (i : LimbIx)
  | mask
  | bw
  | cy
  | op
  | fin
  deriving DecidableEq, Repr

/-- The state of the machine. The registers are those of the table of R10; the last two fields are the model's own. -/
structure State where
  /-- `X[0..3]`, first operand (R11). -/
  x : Quad (Option Limb)
  /-- `Y[0..3]`, second operand (R12). -/
  y : Quad (Option Limb)
  /-- `Z[0..3]`, partial difference, then result (R14). -/
  z : Quad (Option Limb)
  /-- `M[0..3]`, masked modulus limbs (R17). -/
  m : Quad (Option Limb)
  /-- `MASK` (R17). -/
  mask : Option Limb
  /-- `BW`, the borrow flag (R16). -/
  bw : Option Bool
  /-- `CY`, the carry flag (R16). -/
  cy : Option Bool
  /-- `OP`, the command in flight or the last one (R18). -/
  op : Option Op
  /-- `FIN`, flag operand (R18). -/
  fin : Option Bool
  /-- `FOUT`, flag result (R18). -/
  fout : Option Bool
  /-- `UPC`, the micro-step counter (R19). -/
  upc : BitVec 4
  /-- `BUSY`, a command is in flight (R18). -/
  busy : Bool
  /-- `RVALID`, `Z` and `FOUT` hold the result of the last command (R18). -/
  rvalid : Bool
  /-- The trace: the events since the last issue, oldest first. A record the model keeps, no hardware state (R23). -/
  trace : List Event
  /-- What the host will drive on the input ports, one entry a step, the next step's first; past its end the host asks for
  nothing. The model's own field: the environment of R10, not a register. DESIGN CHOICE, log entry 2. -/
  inputs : List PortsIn
  deriving DecidableEq, Repr

/-- Why the machine stops with a fault. -/
inductive Fault where
  /-- A read of a register, or of one limb of one, that holds no value: by a micro-operation, raised by
  `Sys2Proof.Machine.readReg`, or of `OP` by a step, raised by `Sys2Proof.Machine.nextMove`. R20 of spec/10_state.md, D16 of
  spec/92_eei_decisions.md and U10 of spec/93_implementation_defined.md state this fault; no state reachable from reset raises
  it. Safe. -/
  | noValue (r : Reg)
  deriving DecidableEq, Repr

/-- Why an instruction has no meaning. -/
inductive Refusal where
  /-- An instruction the model has not reached, raised by `exec` alone; no arm uses it. Safe. -/
  | notModelled (mnemonic : String)
  /-- A command is in flight and its microprogram has no entry at `UPC`, raised by `Sys2Proof.Machine.nextMove`. No state
  reachable from reset has such a pair (R57; U13: a state not reachable from reset is refused). Safe. -/
  | noMicroOp (o : Op) (upc : BitVec 4)
  deriving DecidableEq, Repr

/-- The state after reset: `BUSY`, `RVALID` and `UPC` are 0, every other register holds no value, the trace is empty (R24,
R115), and the host asks for nothing. -/
def State.reset : State :=
  { x := Quad.fill none, y := Quad.fill none, z := Quad.fill none, m := Quad.fill none
    mask := none, bw := none, cy := none, op := none, fin := none, fout := none
    upc := 0#4, busy := false, rvalid := false, trace := [], inputs := [] }

end Sys2Proof.Machine
end

