-- ==== Sys2Proof/Machine/Operands.lean ====
section
/-! DEFINITION. Machine/Operands.lean: limbs of a 4-limb value, its number, its port form and its byte form, and the read
of the modulus ROM: spec/00_scope.md R7, spec/20_memory.md R30 to R32, spec/30_encoding.md R43, R45. -/

namespace Sys2Proof

/-- Limb `i`. -/
def Quad.get {α : Type} (q : Quad α) (i : LimbIx) : α :=
  match i with
  | 0 => q.l0
  | 1 => q.l1
  | 2 => q.l2
  | 3 => q.l3

/-- `q` with limb `i` written. -/
def Quad.set {α : Type} (q : Quad α) (i : LimbIx) (v : α) : Quad α :=
  match i with
  | 0 => { q with l0 := v }
  | 1 => { q with l1 := v }
  | 2 => { q with l2 := v }
  | 3 => { q with l3 := v }

/-- The four limbs changed one by one. -/
def Quad.map {α β : Type} (f : α → β) (q : Quad α) : Quad β := ⟨f q.l0, f q.l1, f q.l2, f q.l3⟩

/-- All four limbs, where each holds a value (R20). -/
def Quad.values {α : Type} (q : Quad (Option α)) : Option (Quad α) :=
  match q with
  | ⟨some a, some b, some c, some d⟩ => some ⟨a, b, c, d⟩
  | _ => none

namespace Machine

/-- `val(L)`, the number a 4-limb value stands for (R7). -/
def val (q : Quad Limb) : Nat :=
  q.l0.toNat + q.l1.toNat * 2 ^ 64 + q.l2.toNat * 2 ^ 128 + q.l3.toNat * 2 ^ 192

/-- `limbs(v)`, the 4-limb value of a number (R7). -/
def limbs (v : Nat) : Quad Limb :=
  ⟨BitVec.ofNat 64 v, BitVec.ofNat 64 (v / 2 ^ 64), BitVec.ofNat 64 (v / 2 ^ 128), BitVec.ofNat 64 (v / 2 ^ 192)⟩

/-- Operand assembly: limb `i` is bits `64*i+63 : 64*i` of the port (R43). -/
def ofPort (w : Wide) : Quad Limb :=
  ⟨w.extractLsb' 0 64, w.extractLsb' 64 64, w.extractLsb' 128 64, w.extractLsb' 192 64⟩

/-- The port form of a 4-limb value, limb `i` on bits `64*i+63 : 64*i` (R45). -/
def toPort (q : Quad Limb) : Wide := q.l3 ++ q.l2 ++ q.l1 ++ q.l0

/-- The byte image of a port value, 32 bytes, byte `k` holding bits `8*k+7 : 8*k` (R32). -/
def toBytes (w : Wide) : List (BitVec 8) :=
  (List.range 32).map fun k => w.extractLsb' (8 * k) 8

/-- The port value of a byte image, byte 0 the least significant (R32). -/
def ofBytes (bs : List (BitVec 8)) : Wide :=
  BitVec.ofNat 256 (bs.foldr (fun b n => b.toNat + 2 ^ 8 * n) 0)

/-- `MemRead(i, 8)`: the word of the modulus ROM at limb index `i`; it depends on nothing else and cannot fault (R31). -/
def memRead (i : LimbIx) : Limb := Config.modulus.get i

end Machine

end Sys2Proof
end

