-- ==== Sys2Proof/Machine/Flags.lean ====
section
/-! DEFINITION. Machine/Flags.lean: the three pure functions of one limb and the flags they give, spec/40_limb_primitives.md
R54, R55, R56. Each is computed on unbounded integers and narrowed at the end. -/

namespace Sys2Proof.Machine

/-- `sbb(a, b, bin)`, subtract-with-borrow: the low 64 bits of `a - b - bin`, and whether that difference is negative
(R54). -/
def sbb (a b : Limb) (bin : Bool) : Limb × Bool :=
  let t : Int := (a.toNat : Int) - (b.toNat : Int) - (bin.toNat : Int)
  (BitVec.ofInt 64 t, decide (t < 0))

/-- `adc(a, b, cin)`, add-with-carry: the low 64 bits of `a + b + cin`, and whether that sum exceeds `2^64 - 1` (R55). -/
def adc (a b : Limb) (cin : Bool) : Limb × Bool :=
  let t : Nat := a.toNat + b.toNat + cin.toNat
  (BitVec.ofNat 64 t, decide (2 ^ 64 - 1 < t))

/-- `b2m(f)`, the 64-bit mask of a flag: all ones or all zeros (R56). -/
def b2m (f : Bool) : Limb :=
  BitVec.ofInt 64 (0 - (f.toNat : Int))

end Sys2Proof.Machine
end

