-- ==== Sys2Proof/Machine/Units.lean ====
section
/-! DEFINITION. Machine/Units.lean: the units of the block as pure functions of 4-limb values (the function level of
spec/00_scope.md R9) and as modules between 256-bit ports. The add-back is written over any 4-limb modulus, because
spec/45_properties.md R99 speaks of any; the block's own uses the constant of R13. -/

namespace Sys2Proof.Machine

/-- `bchain(x, y)`: the partial difference and the final borrow, limb 0 first, the borrow into limb 0 being 0 (R66). -/
def bchain (x y : Quad Limb) : Quad Limb × Bool :=
  let c0 := sbb x.l0 y.l0 false
  let c1 := sbb x.l1 y.l1 c0.2
  let c2 := sbb x.l2 y.l2 c1.2
  let c3 := sbb x.l3 y.l3 c2.2
  (⟨c0.1, c1.1, c2.1, c3.1⟩, c3.2)

/-- The add-with-carry chain over four limbs, limb 0 first, the carry into limb 0 being 0: the sum and the final carry
(the chain of R72 and R85). -/
def addChain (d m : Quad Limb) : Quad Limb × Bool :=
  let c0 := adc d.l0 m.l0 false
  let c1 := adc d.l1 m.l1 c0.2
  let c2 := adc d.l2 m.l2 c1.2
  let c3 := adc d.l3 m.l3 c2.2
  (⟨c0.1, c1.1, c2.1, c3.1⟩, c3.2)

/-- Each limb of `q` ANDed with the mask of flag `f` (R72). -/
def maskedBy (q : Quad Limb) (f : Bool) : Quad Limb := q.map fun l => l &&& b2m f

/-- The masked add-back of modulus `q`, with the final carry still shown (R72, R75). -/
def cmaddCarryWith (q d : Quad Limb) (f : Bool) : Quad Limb × Bool := addChain d (maskedBy q f)

/-- The masked add-back of modulus `q`, the final carry discarded (R72). -/
def cmaddWith (q d : Quad Limb) (f : Bool) : Quad Limb := (cmaddCarryWith q d f).1

/-- Constant-time modular subtraction with modulus `q` (R78). -/
def subCtWith (q x y : Quad Limb) : Quad Limb := cmaddWith q (bchain x y).1 (bchain x y).2

/-- Branching modular subtraction with modulus `q` (R85). -/
def subBrWith (q x y : Quad Limb) : Quad Limb :=
  if (bchain x y).2 then (addChain (bchain x y).1 q).1 else (bchain x y).1

/-- `cmadd(d, f)` (R72). -/
def cmadd (d : Quad Limb) (f : Bool) : Quad Limb := cmaddWith Config.modulus d f

/-- `sub_ct(x, y)` (R78). -/
def subCt (x y : Quad Limb) : Quad Limb := subCtWith Config.modulus x y

/-- `sub_br(x, y)` (R85). -/
def subBr (x y : Quad Limb) : Quad Limb := subBrWith Config.modulus x y

/-- The module `borrow_propagate_chain`: ports `x`, `y` in, `d` and `borrow` out (R69). -/
def borrowPropagateChain (x y : Wide) : Wide × Bool :=
  (toPort (bchain (ofPort x) (ofPort y)).1, (bchain (ofPort x) (ofPort y)).2)

/-- The module `conditional_modadd_bitmask`: ports `d`, `borrow` in, `z` out (R77). -/
def conditionalModaddBitmask (d : Wide) (borrow : Bool) : Wide := toPort (cmadd (ofPort d) borrow)

/-- The top module: the first unit feeding the second, `d` to `d` and `borrow` to `borrow` (R78). -/
def modularSubtractConstTime (x y : Wide) : Wide :=
  conditionalModaddBitmask (borrowPropagateChain x y).1 (borrowPropagateChain x y).2

end Sys2Proof.Machine
end

