-- ==== Sys2Proof/Machine/Ops.lean ====
section
/-! DEFINITION. Machine/Ops.lean: the named operations over the registers and the host's moves. The block has no
exception, trap or interrupt, hence no operation that takes one and none that returns from one
(spec/60_exceptions.md R100, R105, R106, R109). -/

namespace Sys2Proof.Machine

/-- Reading a register that may hold no value. The spec has a model treat a read of `⊥` as a fault, not as zero and not as an
arbitrary value (R20; D16 of spec/92_eei_decisions.md, U10 of spec/93_implementation_defined.md). -/
def readReg {α : Type} (r : Reg) (v : Option α) (k : α → Host.Outcome State Fault Refusal) :
    Host.Outcome State Fault Refusal :=
  match v with
  | some a => k a
  | none => .fault (.noValue r)

/-- `emit(e)`: append the event to the trace (R8, R23). -/
def State.emit (s : State) (e : Event) : State := { s with trace := s.trace ++ [e] }

/-- The close of every micro-operation but `BR` and `END`: `UPC <- UPC + 1` and the event (R19). -/
def State.advance (s : State) (e : Event) : State := { s.emit e with upc := s.upc + 1#4 }

/-- The issue move: everything is latched at once, the flags and `UPC` become 0, the result and the other transients lose
their values, the trace is emptied (R121). While `BUSY = 1` there is no issue: the request waits and has no effect (R122;
log entry 5). -/
def issue (o : Op) (x y : Wide) (fin : Bool) (s : State) : Host.Outcome State Fault Refusal :=
  if s.busy then .next s
  else .next
    { s with
      op := some o, fin := some fin
      x := (ofPort x).map some, y := (ofPort y).map some
      bw := some false, cy := some false, upc := 0#4
      z := Quad.fill none, m := Quad.fill none, mask := none, fout := none
      busy := true, rvalid := false, trace := [] }

/-- The reset move, in any state: every register as after reset and the trace emptied; what the host will drive next is not
the block's to change (R24, R115, R116, R124). -/
def State.resetMove (s : State) : State := { State.reset with inputs := s.inputs }

/-- What the host drives on the ports during this step; past the end of `inputs` it asks for nothing. -/
def State.ports (s : State) : PortsIn := s.inputs.headD PortsIn.quiet

/-- The state with this step's port values used up. -/
def State.tick (s : State) : State := { s with inputs := s.inputs.tail }

/-- The output port `req_ready` (R42). -/
def State.reqReady (s : State) : Bool := !s.busy

/-- The output port `rsp_valid` (R42). -/
def State.rspValid (s : State) : Bool := s.rvalid

/-- The read move: enabled while `RVALID = 1`, it gives `Z` and `FOUT` and changes nothing (R123). While `RVALID = 0` there
is no such move (R122) and the answer is `none`. -/
def State.hostRead (s : State) : Option (Quad Limb × Bool) :=
  if s.rvalid then
    match s.z.values, s.fout with
    | some z, some f => some (z, f)
    | _, _ => none
  else none

/-- The response word `RSP`: bit 256 is `FOUT`, bits 255:0 are `val(Z)` (R45). -/
def State.rsp (s : State) : Option (BitVec 257) :=
  s.hostRead.map fun r => BitVec.ofBool r.2 ++ toPort r.1

/-- The ROM index an event reads: `i` for `AND(i)` and `ADCP(i)`, none for the others (R23). -/
def Event.romIndex : Event → Option LimbIx
  | .and i => some i
  | .adcp i => some i
  | .sbb _ => none
  | .b2m => none
  | .adc _ => none
  | .br _ => none
  | .endOp => none

/-- The memory-access pattern of a trace (R41). -/
def romReads (t : List Event) : List LimbIx := t.filterMap Event.romIndex

/-- The limb operations of R128: `SBB`, `ADC` and `ADCP`. -/
def Event.isLimbOp : Event → Bool
  | .sbb _ => true
  | .adc _ => true
  | .adcp _ => true
  | .b2m => false
  | .and _ => false
  | .br _ => false
  | .endOp => false

end Sys2Proof.Machine
end

