-- ==== Sys2Proof/Machine/Commands.lean ====
section
/-! DEFINITION. Machine/Commands.lean: the meanings of the four commands as the host gives them to the block: the issue
move (spec/70_reset_and_hazards.md R121) with the command's code. What the command computes is done by the steps of its
microprogram (spec/41_borrow_propagate_chain.md R68, spec/42_conditional_modadd_bitmask.md R74,
spec/43_modular_subtract_const_time.md R79, spec/44_branching_reference.md R87). -/

namespace Sys2Proof.Machine

/-- Issue `SUBCT` (R79, R121). -/
def execSubct (x y : Wide) (fin : Bool) (s : State) : Host.Outcome State Fault Refusal :=
  issue .subct x y fin s

/-- Issue `BCHAIN` (R68, R121). -/
def execBchain (x y : Wide) (fin : Bool) (s : State) : Host.Outcome State Fault Refusal :=
  issue .bchain x y fin s

/-- Issue `CMADD` (R74, R121). -/
def execCmadd (x y : Wide) (fin : Bool) (s : State) : Host.Outcome State Fault Refusal :=
  issue .cmadd x y fin s

/-- Issue `SUBBR` (R87, R121). -/
def execSubbr (x y : Wide) (fin : Bool) (s : State) : Host.Outcome State Fault Refusal :=
  issue .subbr x y fin s

end Sys2Proof.Machine
end

