-- ==== Sys2Proof/Machine/MicroOps.lean ====
section
/-! DEFINITION. Machine/MicroOps.lean: the meanings of the seven micro-operations, spec/40_limb_primitives.md R58 to R63 and
spec/44_branching_reference.md R86. A micro-operation does what its rule says wherever it is performed; that a step is
enabled only while `BUSY = 1`, and which micro-operation it is, stands in Machine/Microprogram.lean (R57). -/

namespace Sys2Proof.Machine

/-- `SBB i`: `(Z[i], BW) <- sbb(X[i], Y[i], BW)` (R58). -/
def execSbb (i : LimbIx) (s : State) : Host.Outcome State Fault Refusal :=
  readReg (.x i) (s.x.get i) fun a =>
  readReg (.y i) (s.y.get i) fun b =>
  readReg .bw s.bw fun bin =>
  .next (State.advance { s with z := s.z.set i (some (sbb a b bin).1), bw := some (sbb a b bin).2 } (.sbb i))

/-- `B2M`: `MASK <- b2m(f)`, where `f` is `FIN` under `CMADD` and `BW` otherwise (R59). -/
def execB2m (s : State) : Host.Outcome State Fault Refusal :=
  readReg .op s.op fun o =>
  readReg (if o = .cmadd then .fin else .bw) (if o = .cmadd then s.fin else s.bw) fun f =>
  .next (State.advance { s with mask := some (b2m f) } .b2m)

/-- `AND i`: `M[i] <- P[i] & MASK`; the ROM is read whatever the mask is (R60). -/
def execAnd (i : LimbIx) (s : State) : Host.Outcome State Fault Refusal :=
  readReg .mask s.mask fun mask =>
  .next (State.advance { s with m := s.m.set i (some (memRead i &&& mask)) } (.and i))

/-- `ADC i`: `(Z[i], CY) <- adc(a, M[i], CY)`, where `a` is `X[i]` under `CMADD` and `Z[i]` otherwise (R61). -/
def execAdc (i : LimbIx) (s : State) : Host.Outcome State Fault Refusal :=
  readReg .op s.op fun o =>
  readReg (if o = .cmadd then .x i else .z i) (if o = .cmadd then s.x.get i else s.z.get i) fun a =>
  readReg (.m i) (s.m.get i) fun b =>
  readReg .cy s.cy fun cin =>
  .next (State.advance { s with z := s.z.set i (some (adc a b cin).1), cy := some (adc a b cin).2 } (.adc i))

/-- `ADCP i`: `(Z[i], CY) <- adc(Z[i], P[i], CY)` (R62). -/
def execAdcp (i : LimbIx) (s : State) : Host.Outcome State Fault Refusal :=
  readReg (.z i) (s.z.get i) fun a =>
  readReg .cy s.cy fun cin =>
  .next (State.advance
    { s with z := s.z.set i (some (adc a (memRead i) cin).1), cy := some (adc a (memRead i) cin).2 } (.adcp i))

/-- `BR`: `UPC <- 5` if `BW = 1`, else `UPC <- 9`; the event carries the direction (R86). -/
def execBr (s : State) : Host.Outcome State Fault Refusal :=
  readReg .bw s.bw fun t =>
  .next { s.emit (.br t) with upc := if t then 5#4 else 9#4 }

/-- The last step of a command, given the flag it shows: the result becomes valid and the transients lose their values
(R63). -/
def State.finish (s : State) (f : Bool) : State :=
  { s.emit .endOp with
    fout := some f, busy := false, rvalid := true, upc := 0#4
    bw := none, cy := none, mask := none, m := Quad.fill none }

/-- `END`: `FOUT <- BW` under `BCHAIN` and 0 otherwise (R63). -/
def execEnd (s : State) : Host.Outcome State Fault Refusal :=
  readReg .op s.op fun o =>
  if o = .bchain then readReg .bw s.bw fun f => .next (s.finish f)
  else .next (s.finish false)

end Sys2Proof.Machine
end

