-- ==== Sys2Proof/Machine/Dispatch.lean ====
section
/-! DEFINITION. Machine/Dispatch.lean: one arm per constructor of `Instr`, each one call of its meaning. -/

namespace Sys2Proof.Machine

def exec (i : Instr) (s : State) : Host.Outcome State Fault Refusal :=
  match i with
  | .subct x y fin => Sys2Proof.Machine.execSubct x y fin s
  | .bchain x y fin => Sys2Proof.Machine.execBchain x y fin s
  | .cmadd x y fin => Sys2Proof.Machine.execCmadd x y fin s
  | .subbr x y fin => Sys2Proof.Machine.execSubbr x y fin s
  | .sbb k => Sys2Proof.Machine.execSbb k s
  | .b2m => Sys2Proof.Machine.execB2m s
  | .and k => Sys2Proof.Machine.execAnd k s
  | .adc k => Sys2Proof.Machine.execAdc k s
  | .adcp k => Sys2Proof.Machine.execAdcp k s
  | .br => Sys2Proof.Machine.execBr s
  | .endOp => Sys2Proof.Machine.execEnd s

end Sys2Proof.Machine
end

