-- ==== Sys2Proof/Decode.lean ====
section
/-! DEFINITION. Decode.lean: from the bits to an instruction and back, spec/30_encoding.md R43, R44, R47, R48, R49. There
are two formats: a request word `REQ` of 515 bits (format `CMD`) and a micro-operation code of 5 bits (format `UOP`). The
spec gives neither a byte image, so the decoder reads the words themselves; it is total on every word of both. -/

namespace Sys2Proof

/-- A word of one of the two formats. -/
inductive Code where
  /-- A whole request, `REQ` (R43). -/
  | req (w : BitVec 515)
  /-- A micro-operation code, `UOP` (R47). -/
  | uop (c : BitVec 5)
  deriving DecidableEq, Repr

/-- Why a word is no instruction. -/
inductive DecodeError where
  /-- A micro-operation code that R48 does not list (R49: 0x05-0x07, 0x15-0x17, 0x19-0x1F). Safe: it stops. -/
  | unusedUop (c : BitVec 5)
  deriving DecidableEq, Repr

/-- The command code of the two bits `OP` (R44). -/
def Op.ofBits (b : BitVec 2) : Op :=
  match b.toNat with
  | 0 => .subct
  | 1 => .bchain
  | 2 => .cmadd
  | _ => .subbr

/-- The two bits `OP` of a command code (R44). -/
def Op.bits : Op → BitVec 2
  | .subct => 0#2
  | .bchain => 1#2
  | .cmadd => 2#2
  | .subbr => 3#2

/-- The request word: `OP` on bits 514:513, `FIN` on 512, `Y` on 511:256, `X` on 255:0 (R43). -/
def packReq (op : BitVec 2) (fin : Bool) (y x : Wide) : BitVec 515 :=
  op ++ BitVec.ofBool fin ++ y ++ x

/-- Decoding a request: total, and it never refuses (R49). -/
def decodeReq (w : BitVec 515) : Instr :=
  (Op.ofBits (w.extractLsb' 513 2)).instr (w.extractLsb' 0 256) (w.extractLsb' 256 256) (w.getLsbD 512)

/-- Decoding a micro-operation code: bits 4:2 are the kind, bits 1:0 the limb index, which is 0 for the kinds that have no
limb (R47, R48). Every other code is refused by name (R49). -/
def decodeUop (c : BitVec 5) : Except DecodeError Instr :=
  let i : LimbIx := (c.extractLsb' 0 2).toFin
  match (c.extractLsb' 2 3).toNat with
  | 0 => .ok (.sbb i)
  | 1 => if i = 0 then .ok .b2m else .error (.unusedUop c)
  | 2 => .ok (.and i)
  | 3 => .ok (.adc i)
  | 4 => .ok (.adcp i)
  | 5 => if i = 0 then .ok .br else .error (.unusedUop c)
  | 6 => if i = 0 then .ok .endOp else .error (.unusedUop c)
  | _ => .error (.unusedUop c)

/-- Decoding a word of either format. -/
def decode : Code → Except DecodeError Instr
  | .req w => .ok (decodeReq w)
  | .uop c => decodeUop c

/-- A micro-operation code from its kind and its limb index (R47). -/
def packUop (kind : BitVec 3) (i : LimbIx) : BitVec 5 :=
  kind ++ (BitVec.ofFin i : BitVec 2)

/-- The word of an instruction, from the tables R43, R44 and R48. -/
def encode : Instr → Code
  | .subct x y fin => .req (packReq (Op.bits .subct) fin y x)
  | .bchain x y fin => .req (packReq (Op.bits .bchain) fin y x)
  | .cmadd x y fin => .req (packReq (Op.bits .cmadd) fin y x)
  | .subbr x y fin => .req (packReq (Op.bits .subbr) fin y x)
  | .sbb i => .uop (packUop 0#3 i)
  | .b2m => .uop (packUop 1#3 0)
  | .and i => .uop (packUop 2#3 i)
  | .adc i => .uop (packUop 3#3 i)
  | .adcp i => .uop (packUop 4#3 i)
  | .br => .uop (packUop 5#3 0)
  | .endOp => .uop (packUop 6#3 0)

/-- The instruction of a word the opcode table numbers: `nbits` bits, the value `w`. A row of width 2 is a command code
`OP`, whose operand ports are all 0; a row of width 5 is a micro-operation code. Where the width is rounded up to a whole
byte (or is missing) it no longer tells the formats apart: the words 0 to 3 are then read as command codes and the words
4 to 31 as micro-operation codes, so that `SBB i` is reached only by its own width. DESIGN CHOICE, log entry 8. -/
def decodeTableWord (nbits w : Nat) : Option Instr :=
  let cmd := fun (k : Nat) => (decode (.req (packReq (BitVec.ofNat 2 k) false 0#256 0#256))).toOption
  let uop := fun (k : Nat) => (decode (.uop (BitVec.ofNat 5 k))).toOption
  if nbits ≤ 2 then
    if w < 4 then cmd w else none
  else if nbits ≤ 5 then
    if w < 32 then uop w else none
  else if w < 4 then cmd w
  else if w < 32 then uop w
  else none

end Sys2Proof
end

