-- ==== Sys2Proof/Machine/Microprogram.lean ====
section
/-! DEFINITION. Machine/Microprogram.lean: the hard-wired micro-sequences and what the machine does next,
spec/30_encoding.md R48, spec/40_limb_primitives.md R57, spec/60_exceptions.md R103. -/

namespace Sys2Proof.Machine

/-- The microprogram of a command, a list of micro-operation codes indexed by `UPC` from 0 (R48; R68, R74, R79, R87). -/
def microprogram : Op → List (BitVec 5)
  | .subct =>
    [0x00#5, 0x01#5, 0x02#5, 0x03#5, 0x04#5, 0x08#5, 0x09#5, 0x0A#5, 0x0B#5, 0x0C#5, 0x0D#5, 0x0E#5, 0x0F#5, 0x18#5]
  | .bchain => [0x00#5, 0x01#5, 0x02#5, 0x03#5, 0x18#5]
  | .cmadd => [0x04#5, 0x08#5, 0x09#5, 0x0A#5, 0x0B#5, 0x0C#5, 0x0D#5, 0x0E#5, 0x0F#5, 0x18#5]
  | .subbr => [0x00#5, 0x01#5, 0x02#5, 0x03#5, 0x14#5, 0x10#5, 0x11#5, 0x12#5, 0x13#5, 0x18#5]

/-- The micro-operation at `(OP, UPC)`: the code of the table, decoded (R57). It depends on nothing else. -/
def lookup (o : Op) (upc : BitVec 4) : Option Instr :=
  ((microprogram o)[upc.toNat]?).bind fun c => (decodeUop c).toOption

/-- What happens in one step. -/
inductive Move where
  /-- The reset move. -/
  | reset
  /-- An issue, or a micro-operation of the command in flight. -/
  | run (i : Instr)
  /-- Nothing is enabled; the registers hold. -/
  | hold
  /-- A command is in flight and `OP`, which every step reads (R10), holds no value: the fault R20 asks for, in no reachable
  state. -/
  | fault (f : Fault)
  /-- A command is in flight and has no micro-operation, in no reachable state. -/
  | refused (r : Refusal)
  deriving DecidableEq, Repr

/-- Which move is made: a reset overrides everything; a micro-step needs `BUSY = 1`; an issue needs `BUSY = 0` and
`req_valid = 1`, and then the request on the ports is decoded; otherwise the block is idle (R57, R103, R113, R121, R124). -/
def nextMove (s : State) : Move :=
  let p := s.ports
  if p.rst then .reset
  else if s.busy then
    match s.op with
    | none => .fault (.noValue .op)
    | some o =>
      match lookup o s.upc with
      | some i => .run i
      | none => .refused (.noMicroOp o s.upc)
  else if p.reqValid then .run (decodeReq (packReq p.reqOp p.reqFin p.reqY p.reqX))
  else .hold

/-- Ports on which the host presents a command with operands of zeros. -/
def PortsIn.request (o : Op) (x y : Wide) (fin : Bool) : PortsIn :=
  { rst := false, reqValid := true, reqOp := o.bits, reqX := x, reqY := y, reqFin := fin }

/-- A register limb with 0 put where it holds no value. -/
def fillLimb (q : Quad (Option Limb)) (i : LimbIx) : Quad (Option Limb) :=
  q.set i (some ((q.get i).getD 0#64))

/-- `s` in the middle of command `o` with `UPC = k`, its ports quiet. -/
def State.inFlight (s : State) (o : Op) (k : BitVec 4) : State :=
  { s with op := some o, upc := k, busy := true, rvalid := false, inputs := PortsIn.quiet :: s.inputs.tail }

/-- `s` made ready to run instruction `i` at its next step. A command is put on the ports of an idle block. A
micro-operation cannot be put anywhere, since the microprograms are hard-wired (R47): the block is put in the middle of a
command at the place where its microprogram has that micro-operation, and each register the micro-operation reads gets 0
where it holds no value. DESIGN CHOICE, log entry 9. -/
def State.readyFor (s : State) (i : Instr) : State :=
  let ask := fun (o : Op) (x y : Wide) (fin : Bool) =>
    { s with busy := false, inputs := PortsIn.request o x y fin :: s.inputs.tail }
  match i with
  | .subct x y fin => ask .subct x y fin
  | .bchain x y fin => ask .bchain x y fin
  | .cmadd x y fin => ask .cmadd x y fin
  | .subbr x y fin => ask .subbr x y fin
  | .sbb k =>
    { s.inFlight .bchain (BitVec.ofNat 4 k.val) with
      x := fillLimb s.x k, y := fillLimb s.y k, bw := some (s.bw.getD false) }
  | .b2m => { s.inFlight .subct 4#4 with bw := some (s.bw.getD false) }
  | .and k => { s.inFlight .subct (BitVec.ofNat 4 (5 + k.val)) with mask := some (s.mask.getD 0#64) }
  | .adc k =>
    { s.inFlight .subct (BitVec.ofNat 4 (9 + k.val)) with
      z := fillLimb s.z k, m := fillLimb s.m k, cy := some (s.cy.getD false) }
  | .adcp k =>
    { s.inFlight .subbr (BitVec.ofNat 4 (5 + k.val)) with z := fillLimb s.z k, cy := some (s.cy.getD false) }
  | .br => { s.inFlight .subbr 4#4 with bw := some (s.bw.getD false) }
  | .endOp => { s.inFlight .bchain 4#4 with bw := some (s.bw.getD false) }

end Sys2Proof.Machine
end

