-- ==== Sys2Proof/Machine/Step.lean ====
section
/-! DEFINITION. Machine/Step.lean: one step of the machine (spec/40_limb_primitives.md R57, spec/60_exceptions.md R103).
Each step uses up one entry of the host's port values. -/

namespace Sys2Proof.Machine

/-- One step: the move `nextMove` names, after which the next port values stand on the ports. -/
def step (s : State) : Host.Outcome State Fault Refusal :=
  match nextMove s with
  | .reset => .next s.tick.resetMove
  | .run i => exec i s.tick
  | .hold => .next s.tick
  | .fault f => .fault f
  | .refused r => .refused r

/-- `s` with the instruction of the table word `(nbits, w)` as the next one to run; a word that is no instruction changes
nothing. -/
def State.withFetchWord (s : State) (nbits w : Nat) : State :=
  match decodeTableWord nbits w with
  | some i => s.readyFor i
  | none => s

end Sys2Proof.Machine
end

