-- ==== Sys2Proof/Machine/Program.lean ====
section
/-! DEFINITION. Machine/Program.lean: programs as a host writes them (spec/30_encoding.md R51) and a run of one, move by
move, to its end and its outcome (spec/70_reset_and_hazards.md R121 to R123, R129). The host of a run issues the commands one
after another, each after the one before has ended and has been read (spec/95_test_vectors.md part 5), and does not reset. -/

namespace Sys2Proof.Machine

/-- A 4-limb operand: the name of a host variable, here a number, or a limb-list literal (R51). -/
inductive WideOperand where
  | var (n : Nat)
  | lit (q : Quad Limb)
  deriving DecidableEq, Repr

/-- A flag operand: `0`, `1` or the name of a host variable (R51). -/
inductive FlagOperand where
  | var (n : Nat)
  | lit (b : Bool)
  deriving DecidableEq, Repr

/-- A command as a program writes it, results first (R51). Results go to variables; 4-limb variables and flag variables have
names of their own (log entry 20). -/
inductive Command where
  /-- `SUBCT z, x, y`. -/
  | subct (z : Nat) (x y : WideOperand)
  /-- `BCHAIN z, f, x, y`. -/
  | bchain (z f : Nat) (x y : WideOperand)
  /-- `CMADD z, x, f`. -/
  | cmadd (z : Nat) (x : WideOperand) (f : FlagOperand)
  /-- `SUBBR z, x, y`. -/
  | subbr (z : Nat) (x y : WideOperand)
  deriving DecidableEq, Repr

/-- A program: the commands in the order the host issues them (R51). -/
abbrev Program := List Command

/-- The host's variables, the latest value of a name first. They are the host's, and no state of the block. -/
structure Vars where
  values : List (Nat × Quad Limb)
  flags : List (Nat × Bool)
  deriving DecidableEq, Repr

/-- The value of a 4-limb operand, if its variable has one. -/
def WideOperand.eval (v : Vars) : WideOperand → Option (Quad Limb)
  | .var n => v.values.lookup n
  | .lit q => some q

/-- The value of a flag operand, if its variable has one. -/
def FlagOperand.eval (v : Vars) : FlagOperand → Option Bool
  | .var n => v.flags.lookup n
  | .lit b => some b

/-- The command code a program's command issues (R51). -/
def Command.op : Command → Op
  | .subct _ _ _ => .subct
  | .bchain _ _ _ _ => .bchain
  | .cmadd _ _ _ => .cmadd
  | .subbr _ _ _ => .subbr

/-- The request of a command that takes two 4-limb operands, its flag operand being 0 (R51). -/
def requestOfTwo (o : Op) (x y : Option (Quad Limb)) : Option PortsIn :=
  match x, y with
  | some x, some y => some (PortsIn.request o (toPort x) (toPort y) false)
  | _, _ => none

/-- What the host drives to issue a command: its operands' values, and 0 on the inputs it ignores (R46, R51). -/
def Command.request (v : Vars) : Command → Option PortsIn
  | .subct _ x y => requestOfTwo .subct (x.eval v) (y.eval v)
  | .bchain _ _ x y => requestOfTwo .bchain (x.eval v) (y.eval v)
  | .cmadd _ x f =>
    match x.eval v, f.eval v with
    | some x, some f => some (PortsIn.request .cmadd (toPort x) 0#256 f)
    | _, _ => none
  | .subbr _ x y => requestOfTwo .subbr (x.eval v) (y.eval v)

/-- The variables after the result `(Z, FOUT)` of a command has been read: `z` is `rsp_z` and, for `BCHAIN`, `f` is
`rsp_fout` (R51). -/
def Command.receive (v : Vars) (r : Quad Limb × Bool) : Command → Vars
  | .subct z _ _ => { v with values := (z, r.1) :: v.values }
  | .bchain z f _ _ => { values := (z, r.1) :: v.values, flags := (f, r.2) :: v.flags }
  | .cmadd z _ _ => { v with values := (z, r.1) :: v.values }
  | .subbr z _ _ => { v with values := (z, r.1) :: v.values }

/-- A run of a program: the block, the host's variables, the commands not issued yet, the one issued whose result has not
been read, and what has been observed so far: the results read and, command by command, the traces (R129). -/
structure Run where
  block : State
  vars : Vars
  todo : Program
  pending : Option Command
  reads : List (Quad Limb × Bool)
  traces : List (List Event)
  deriving DecidableEq, Repr

/-- The moves of a run: the host issues the next command, the block takes a step while the host drives `p`, the host reads
(R57, R121, R123). -/
inductive RunMove where
  | issue
  | step (p : PortsIn)
  | read
  deriving DecidableEq, Repr

/-- One step of the block with `p` on its input ports, if it gives a next state. -/
def State.under (s : State) (p : PortsIn) : Option State :=
  match step { s with inputs := [p] } with
  | .next t => some t
  | .fault _ => none
  | .refused _ => none

/-- A run before its first move, from block state `s`. -/
def Run.start (prog : Program) (v : Vars) (s : State) : Run :=
  { block := s, vars := v, todo := prog, pending := none, reads := [], traces := [] }

/-- Issuing the next command: enabled while the block is not busy, the result of the command before has been read and the
operands have values (R51, R121). -/
def Run.issueNext (r : Run) : Option Run :=
  match r.pending, r.todo with
  | none, c :: rest =>
    if r.block.busy then none
    else (c.request r.vars).bind fun p =>
      (r.block.under p).map fun t => { r with block := t, todo := rest, pending := some c }
  | _, _ => none

/-- A step of the command in flight: enabled while the block is busy; the host may drive anything but a reset (R57, R122). -/
def Run.blockStep (r : Run) (p : PortsIn) : Option Run :=
  if r.block.busy && !p.rst then (r.block.under p).map fun t => { r with block := t } else none

/-- Reading the result of the command issued last: enabled once it is there, once for each command. The result moves into the
program's variables; the block does not change (R51, R123). -/
def Run.readResult (r : Run) : Option Run :=
  match r.pending, r.block.hostRead with
  | some c, some v =>
    some { r with
      vars := c.receive r.vars v, pending := none, reads := r.reads ++ [v], traces := r.traces ++ [r.block.trace] }
  | _, _ => none

/-- One move of a run, if it is enabled. -/
def Run.move (r : Run) : RunMove → Option Run
  | .issue => r.issueNext
  | .step p => r.blockStep p
  | .read => r.readResult

/-- Several moves of a run, if each is enabled in its turn. -/
def Run.moves : List RunMove → Run → Option Run
  | [], r => some r
  | m :: ms, r => (r.move m).bind (Run.moves ms)

/-- The run is over: every command has been issued, and the result of the last one, which is there from its `END` on, has
been read (R129). -/
def Run.over (r : Run) : Bool := r.todo.isEmpty && r.pending.isNone

/-- The observable outcome of a run: the results the host read, and the traces (R129). -/
def Run.outcome (r : Run) : List (Quad Limb × Bool) × List (List Event) := (r.reads, r.traces)

end Sys2Proof.Machine
end

