-- ==== Sys2Proof/Safety.lean ====
section
/-! DEFINITION. Safety.lean: what the claims speak of: runs of several steps, what each command computes, its trace and its
number of steps, the outcome of a program, the invariant of the machine, and what an observer of control flow and memory
accesses sees. -/

namespace Sys2Proof.Machine

/-- `k` steps, stopping at the first that gives no next state. -/
def steps : Nat → State → Host.Outcome State Fault Refusal
  | 0, s => .next s
  | k + 1, s =>
    match step s with
    | .next t => steps k t
    | .fault f => .fault f
    | .refused r => .refused r

/-- What the command leaves in `(Z, FOUT)`, at the function level (R44, R98). -/
def commandResult (o : Op) (x y : Quad Limb) (fin : Bool) : Quad Limb × Bool :=
  match o with
  | .subct => (subCt x y, false)
  | .bchain => bchain x y
  | .cmadd => (cmadd x fin, false)
  | .subbr => (subBr x y, false)

/-- The trace of a whole command; only `SUBBR` looks at whether the borrow chain ends with a borrow (R68, R74, R79, R87). -/
def commandTrace (o : Op) (borrow : Bool) : List Event :=
  match o with
  | .subct =>
    [.sbb 0, .sbb 1, .sbb 2, .sbb 3, .b2m, .and 0, .and 1, .and 2, .and 3, .adc 0, .adc 1, .adc 2, .adc 3, .endOp]
  | .bchain => [.sbb 0, .sbb 1, .sbb 2, .sbb 3, .endOp]
  | .cmadd => [.b2m, .and 0, .and 1, .and 2, .and 3, .adc 0, .adc 1, .adc 2, .adc 3, .endOp]
  | .subbr =>
    if borrow then [.sbb 0, .sbb 1, .sbb 2, .sbb 3, .br true, .adcp 0, .adcp 1, .adcp 2, .adcp 3, .endOp]
    else [.sbb 0, .sbb 1, .sbb 2, .sbb 3, .br false, .endOp]

/-- The number of steps from the issue to `END`, inclusive (R128). -/
def commandSteps (o : Op) (borrow : Bool) : Nat :=
  match o with
  | .subct => 14
  | .bchain => 5
  | .cmadd => 10
  | .subbr => if borrow then 10 else 6

/-- Running command `o` from any idle state: the request is taken in the first step and, unless the host asserts `rst`, the
command is in flight until its last step and not after it; under `BCHAIN` and `SUBBR` neither `MASK` nor `M` ever holds a
value meanwhile. Then the read move gives its result, the operands and the command stand where the issue put them, the
transients hold no value, and the trace is the command's (R98; R17, R87). -/
def RunsToResult (o : Op) : Prop :=
  ∀ (s : State) (x y : Wide) (fin : Bool) (rest : List PortsIn),
    s.busy = false → s.inputs = PortsIn.request o x y fin :: rest →
    let borrow := decide (val (ofPort x) < val (ofPort y))
    let n := commandSteps o borrow
    (∀ p ∈ rest.take n, p.rst = false) →
    (∀ k < n, ∃ u, steps (k + 1) s = .next u ∧ u.busy = true ∧ u.rvalid = false ∧ u.hostRead = none ∧
      (o = .bchain ∨ o = .subbr → u.mask = none ∧ u.m = Quad.fill none)) ∧
    ∃ t, steps (n + 1) s = .next t ∧
      t.hostRead = some (commandResult o (ofPort x) (ofPort y) fin) ∧
      t.busy = false ∧ t.rvalid = true ∧ t.upc = 0#4 ∧
      t.x = (ofPort x).map some ∧ t.y = (ofPort y).map some ∧ t.op = some o ∧ t.fin = some fin ∧
      t.bw = none ∧ t.cy = none ∧ t.mask = none ∧ t.m = Quad.fill none ∧
      t.trace = commandTrace o borrow ∧ t.inputs = rest.drop n

/-- The outcome of a program at the function level: what each of its commands leaves in `(Z, FOUT)` and its trace, results
moving into the operands of later commands (R51, R98, R129). `none` where a command names a variable without a value. -/
def programOutcome : Program → Vars → Option (List (Quad Limb × Bool) × List (List Event))
  | [], _ => some ([], [])
  | c :: rest, v =>
    (c.request v).bind fun p =>
      let x := ofPort p.reqX
      let y := ofPort p.reqY
      let result := commandResult c.op x y p.reqFin
      (programOutcome rest (c.receive v result)).map fun o =>
        (result :: o.1, commandTrace c.op (decide (val x < val y)) :: o.2)

/-- Limb `i` holds a value exactly when the micro-operation at place `first + i` is among the `done` first ones of the
microprogram. -/
def filledUpTo {α : Type} (q : Quad (Option α)) (first done : Nat) : Bool :=
  decide (∀ i : LimbIx, (q.get i).isSome = decide (first + i.val < done))

/-- How far a command in flight has come, `done` micro-operations of its microprogram being behind it: which limbs of `Z`
and `M` hold a value, whether `MASK` does, and that `done` is a place of the microprogram (R14, R17, R19, R20). -/
def progressOk (o : Op) (done : Nat) (s : State) : Bool :=
  match o with
  | .subct =>
    decide (done ≤ 13) && filledUpTo s.z 0 done && (s.mask.isSome == decide (4 < done)) && filledUpTo s.m 5 done
  | .bchain => decide (done ≤ 4) && filledUpTo s.z 0 done && (s.mask.isSome == false) && filledUpTo s.m 5 0
  | .cmadd =>
    decide (done ≤ 9) && filledUpTo s.z 5 done && (s.mask.isSome == decide (0 < done)) && filledUpTo s.m 1 done
  | .subbr => decide (done ≤ 9) && filledUpTo s.z 0 done && (s.mask.isSome == false) && filledUpTo s.m 5 0

/-- The trace of a command in flight is the part of its whole trace up to where it stands; a `SUBBR` that skipped the
add-back stands at its `END` with the shorter trace (R23, R87). -/
def traceOk (o : Op) (done : Nat) (t : List Event) : Bool :=
  decide (t = (commandTrace o true).take done) ||
    (decide (o = .subbr) && decide (done = 9) && decide (t = (commandTrace .subbr false).take 5))

/-- `MASK` holds all ones or all zeros and nothing else, and each limb of `M` is the modulus limb ANDed with it (R17). -/
def maskOk (s : State) : Bool :=
  match s.mask with
  | none => true
  | some v =>
    (v == 0#64 || v == BitVec.allOnes 64) &&
      decide (∀ i : LimbIx, s.m.get i = none ∨ s.m.get i = some (memRead i &&& v))

/-- The invariant of the machine. While a command is in flight: `OP`, the operands and the flags hold values, no result is
shown, and the command has come as far as `UPC` says. While none is: `UPC` is 0 and the transients hold no value; either a
result stands, with its trace, or every register is as after reset (R16 to R20, R22, R24, R45). -/
def State.Inv (s : State) : Prop :=
  if s.busy then
    ∃ o, s.op = some o ∧ s.rvalid = false ∧ s.fout = none ∧
      s.x.values.isSome ∧ s.y.values.isSome ∧ s.fin.isSome ∧ s.bw.isSome ∧ s.cy.isSome ∧
      progressOk o s.upc.toNat s ∧ traceOk o s.upc.toNat s.trace ∧ maskOk s
  else
    s.upc = 0#4 ∧ s.bw = none ∧ s.cy = none ∧ s.mask = none ∧ s.m = Quad.fill none ∧
      if s.rvalid then
        s.x.values.isSome ∧ s.y.values.isSome ∧ s.z.values.isSome ∧ s.fin.isSome ∧
          ∃ o f b, s.op = some o ∧ s.fout = some f ∧ (o ≠ .bchain → f = false) ∧ s.trace = commandTrace o b
      else s = s.resetMove

/-- What the host's ports say apart from operand values. -/
def PortsIn.control (p : PortsIn) : Bool × Bool × BitVec 2 := (p.rst, p.reqValid, p.reqOp)

/-- Two states that an observer of control flow and memory accesses cannot tell apart: the same command at the same place,
the same status and the same trace, and the host about to drive the same controls (R23, R97). -/
def LowEq (a b : State) : Prop :=
  a.busy = b.busy ∧ a.rvalid = b.rvalid ∧ a.upc = b.upc ∧ a.op = b.op ∧ a.trace = b.trace ∧
    a.inputs.map PortsIn.control = b.inputs.map PortsIn.control

/-- The instruction is one of the seven micro-operations. -/
def isMicroOp : Instr → Bool
  | .subct _ _ _ => false
  | .bchain _ _ _ => false
  | .cmadd _ _ _ => false
  | .subbr _ _ _ => false
  | .sbb _ => true
  | .b2m => true
  | .and _ => true
  | .adc _ => true
  | .adcp _ => true
  | .br => true
  | .endOp => true

/-- The register, or the limb of one, holds a value (R20). -/
def State.holds (s : State) : Reg → Bool
  | .x i => (s.x.get i).isSome
  | .y i => (s.y.get i).isSome
  | .z i => (s.z.get i).isSome
  | .m i => (s.m.get i).isSome
  | .mask => s.mask.isSome
  | .bw => s.bw.isSome
  | .cy => s.cy.isSome
  | .op => s.op.isSome
  | .fin => s.fin.isSome

/-- No step of a command is enabled, whatever the host drives (R57, R115, R129). -/
def NoStepEnabled (s : State) : Prop :=
  ∀ (inputs : List PortsIn) (i : Instr), isMicroOp i = true → nextMove { s with inputs := inputs } ≠ .run i

/-- The registers a micro-operation reads in state `s`, as its rule lists them (R58 to R63, R86). -/
def operandRegs (i : Instr) (s : State) : List Reg :=
  match i with
  | .subct _ _ _ => []
  | .bchain _ _ _ => []
  | .cmadd _ _ _ => []
  | .subbr _ _ _ => []
  | .sbb k => [.x k, .y k, .bw]
  | .b2m => [.op, if s.op = some .cmadd then .fin else .bw]
  | .and _ => [.mask]
  | .adc k => [.op, if s.op = some .cmadd then .x k else .z k, .m k, .cy]
  | .adcp k => [.z k, .cy]
  | .br => [.bw]
  | .endOp => if s.op = some .bchain then [.op, .bw] else [.op]

end Sys2Proof.Machine
end

