-- ==== Sys2Proof/WellFormed.lean ====
section
/-! DEFINITION. WellFormed.lean: the checks on what a host writes down. The hardware itself refuses nothing: no command
code is reserved and no operand value is illegal (spec/30_encoding.md R49), so every `Instr` is a legal instruction. What
can be ill-formed is a 5-bit word that is no micro-operation code (R48, R49) and a command that is not in the textual
syntax of R51, which drives the inputs a command ignores to 0 (R46). -/

namespace Sys2Proof

/-- The 5-bit code is one of those the micro-operation map R48 lists; the others have no meaning (R49). -/
def uopCodeUsed (c : BitVec 5) : Bool :=
  c.toNat ≤ 0x04 || (0x08 ≤ c.toNat && c.toNat ≤ 0x14) || c.toNat == 0x18

/-- The instruction is as the textual syntax R51 writes it: the flag operand of `SUBCT`, `BCHAIN` and `SUBBR` and the
second operand of `CMADD` are 0. The block does not check it (R46), and no meaning depends on it. -/
def Instr.inHostSyntax : Instr → Bool
  | .subct _ _ fin => !fin
  | .bchain _ _ fin => !fin
  | .cmadd _ y _ => y == 0#256
  | .subbr _ _ fin => !fin
  | .sbb _ => true
  | .b2m => true
  | .and _ => true
  | .adc _ => true
  | .adcp _ => true
  | .br => true
  | .endOp => true

/-- Every instruction is well-formed for the hardware: no field of one has an illegal value (R49). -/
def Instr.wellFormed : Instr → Bool
  | .subct _ _ _ => true
  | .bchain _ _ _ => true
  | .cmadd _ _ _ => true
  | .subbr _ _ _ => true
  | .sbb _ => true
  | .b2m => true
  | .and _ => true
  | .adc _ => true
  | .adcp _ => true
  | .br => true
  | .endOp => true

end Sys2Proof
end

