-- ==== Sys2Proof/Certificates/Slice0/Obligations.lean ====
section
/-! DEFINITION. Certificates/Slice0/Obligations.lean: the statements for the provers, from the numbered rules of spec/. -/

open Sys2Proof Sys2Proof.Machine

/-! ## Encoding -/

/-- R43, R44, R47, R48: decoding the word of an instruction gives it back, with every operand at every value. -/
def Obligations.DecodeOfEncode : Prop :=
  ∀ i : Instr, i.wellFormed = true → decode (encode i) = .ok i

/-- R43, R44, R47, R48: a word that decodes is the word of what it decodes to, so each instruction has one word. -/
def Obligations.EncodeOfDecode : Prop :=
  ∀ (c : Code) (i : Instr), decode c = .ok i → encode i = c

/-- R49: every request word is a command; the micro-operation codes without a meaning are the listed ones, and no
microprogram holds one of them. -/
def Obligations.NoCommandIsRefused : Prop :=
  (∀ w : BitVec 515, ∃ o x y fin, decode (.req w) = .ok (Op.instr o x y fin)) ∧
  (∀ c : BitVec 5, (decode (.uop c)).toOption = none ↔
    c ∈ [0x05#5, 0x06#5, 0x07#5, 0x15#5, 0x16#5, 0x17#5, 0x19#5, 0x1A#5, 0x1B#5, 0x1C#5, 0x1D#5, 0x1E#5, 0x1F#5]) ∧
  ∀ o : Op, ∀ c ∈ microprogram o, (decode (.uop c)).toOption ≠ none

/-- Sanity: words written out from R43, R44 and R48 (the request words are those of spec/95_test_vectors.md). -/
def Obligations.DecodesWordsFromTheSpec : Prop :=
  decode (.req (1#515 <<< 256)) = .ok (.subct 0#256 1#256 false) ∧
  decode (.req ((5#515 <<< 512) + 1#515)) = .ok (.cmadd 1#256 0#256 true) ∧
  decode (.req ((3#515 <<< 513) + (5#515 <<< 256) + 3#515)) = .ok (.subbr 3#256 5#256 false) ∧
  decode (.uop 0b00010#5) = .ok (.sbb 2) ∧ decode (.uop 0b00100#5) = .ok .b2m ∧
  decode (.uop 0b01011#5) = .ok (.and 3) ∧ decode (.uop 0b01101#5) = .ok (.adc 1) ∧
  decode (.uop 0b10011#5) = .ok (.adcp 3) ∧ decode (.uop 0b10100#5) = .ok .br ∧ decode (.uop 0b11000#5) = .ok .endOp

/-! ## Values, ports and the modulus -/

/-- R7, R43, R45: the limbs of a port value are its 64-bit pieces from the least significant end, they stand for the number
on the port, and laying them side by side gives the port back. -/
def Obligations.PortLimbsLeastSignificantFirst : Prop :=
  ∀ w : Wide,
    (∀ (i : LimbIx) (k : Nat), k < 64 → ((ofPort w).get i).getLsbD k = w.getLsbD (64 * i.val + k)) ∧
    val (ofPort w) = w.toNat ∧ toPort (ofPort w) = w ∧ ∀ q : Quad Limb, ofPort (toPort q) = q

/-- R7: `val` and `limbs` are inverse to each other. -/
def Obligations.LimbsAndValInverse : Prop :=
  (∀ q : Quad Limb, val q < 2 ^ 256 ∧ limbs (val q) = q) ∧ ∀ v : Nat, v < 2 ^ 256 → val (limbs v) = v

/-- R32: the byte image has 32 bytes, byte `k` holds bits `8*k+7 : 8*k`, and the port value is read back from it. -/
def Obligations.ByteImageLittleEndian : Prop :=
  ∀ w : Wide, (toBytes w).length = 32 ∧ ofBytes (toBytes w) = w ∧
    ∀ k j : Nat, k < 32 → j < 8 → ((toBytes w).getD k 0#8).getLsbD j = w.getLsbD (8 * k + j)

/-- R5, R13, R31, R35: the four words of the modulus ROM, which stand for `p`. -/
def Obligations.RomHoldsTheModulus : Prop :=
  memRead 0 = 0x43e1f593f0000001#64 ∧ memRead 1 = 0x2833e84879b97091#64 ∧
  memRead 2 = 0xb85045b68181585d#64 ∧ memRead 3 = 0x30644e72e131a029#64 ∧
  val Config.modulus = Config.p ∧
  Config.p = 21888242871839275222246405745257275088548364400416034343698204186575808495617

/-! ## The pure functions -/

/-- R54: the result and the borrow of `sbb`, the identity between them, and their reading from a 128-bit intermediate. -/
def Obligations.SubtractWithBorrowExact : Prop :=
  ∀ (a b : Limb) (bin : Bool),
    let t : Int := (a.toNat : Int) - b.toNat - bin.toNat
    ((sbb a b bin).1.toNat : Int) = t % 2 ^ 64 ∧
    ((sbb a b bin).2 = true ↔ t < 0) ∧
    t = (sbb a b bin).1.toNat - (sbb a b bin).2.toNat * 2 ^ 64 ∧
    ((sbb a b bin).2 = true ↔ a.toNat < b.toNat + bin.toNat) ∧
    (sbb a b bin).1 = (BitVec.ofInt 128 t).extractLsb' 0 64 ∧
    (sbb a b bin).2 = (BitVec.ofInt 128 t).getLsbD 64 ∧ (sbb a b bin).2 = (BitVec.ofInt 128 t).getLsbD 127

/-- R55: the result and the carry of `adc`, and the identity between them. -/
def Obligations.AddWithCarryExact : Prop :=
  ∀ (a b : Limb) (cin : Bool),
    let t : Nat := a.toNat + b.toNat + cin.toNat
    (adc a b cin).1.toNat = t % 2 ^ 64 ∧
    ((adc a b cin).2 = true ↔ 2 ^ 64 - 1 < t) ∧ (adc a b cin).2.toNat = t / 2 ^ 64 ∧
    t = (adc a b cin).1.toNat + (adc a b cin).2.toNat * 2 ^ 64

/-- R56: the two masks, and what ANDing with them does. -/
def Obligations.MaskOfFlag : Prop :=
  b2m true = 0xFFFFFFFFFFFFFFFF#64 ∧ b2m false = 0#64 ∧
  (∀ f : Bool, ((b2m f).toNat : Int) = (0 - (f.toNat : Int)) % 2 ^ 64) ∧
  ∀ (m : Limb) (f : Bool), m &&& b2m f = (if f then m else 0#64) ∧ (m &&& b2m f).toNat = f.toNat * m.toNat

/-- R67: the partial difference and the final borrow of the chain. -/
def Obligations.BorrowChainValue : Prop :=
  ∀ x y : Quad Limb,
    let d := (bchain x y).1
    let f := (bchain x y).2
    (val x : Int) - val y = val d - f.toNat * 2 ^ 256 ∧
    (val d : Int) = ((val x : Int) - val y) % 2 ^ 256 ∧
    (f = true ↔ val x < val y) ∧
    (f = false → (val d : Int) = (val x : Int) - val y) ∧
    (f = true → val d + val y = 2 ^ 256 + val x ∧ 1 ≤ val d) ∧
    bchain x x = (Quad.fill 0#64, false)

/-- R73: the masked add-back with its final carry; with the flag 0 nothing changes and no limb gives a carry. -/
def Obligations.MaskedAddBackValue : Prop :=
  ∀ (d : Quad Limb) (f : Bool),
    let z := cmadd d f
    let c4 := (cmaddCarryWith Config.modulus d f).2
    val d + f.toNat * Config.p = val z + c4.toNat * 2 ^ 256 ∧
    val z = (val d + f.toNat * Config.p) % 2 ^ 256 ∧
    (f = false → z = d ∧ c4 = false ∧ ∀ i : LimbIx, adc (d.get i) ((maskedBy Config.modulus f).get i) false = (d.get i, false)) ∧
    (f = true → val d + Config.p < 2 ^ 256 → val z = val d + Config.p ∧ c4 = false) ∧
    (f = true → 2 ^ 256 ≤ val d + Config.p → val z + 2 ^ 256 = val d + Config.p ∧ c4 = true)

/-- R75: when the add-back gives a final carry, after a borrow chain and alone. -/
def Obligations.FinalCarryOfTheAddBack : Prop :=
  (∀ x y : Quad Limb, val x < val y →
    let c := cmaddCarryWith Config.modulus (bchain x y).1 (bchain x y).2
    (c.2 = true ↔ val y - val x ≤ Config.p) ∧
    (val y - val x ≤ Config.p → val c.1 + (val y - val x) = Config.p ∧ val c.1 < Config.p) ∧
    (Config.p < val y - val x → val c.1 + (val y - val x) = 2 ^ 256 + Config.p ∧ Config.p ≤ val c.1) ∧
    (val y < Config.p → c.2 = true)) ∧
  (∀ d : Quad Limb, (cmaddCarryWith Config.modulus d false).2 = false) ∧
  cmaddCarryWith Config.modulus (Quad.fill 0#64) true = (Config.modulus, false)

/-- R80: the value of `sub_ct` for every input, case by case, with the final borrow and the final carry. -/
def Obligations.ConstantTimeSubtractValue : Prop :=
  ∀ x y : Quad Limb,
    let z := subCt x y
    let borrow := (bchain x y).2
    let carry := (cmaddCarryWith Config.modulus (bchain x y).1 borrow).2
    (val z : Int) = ((val x : Int) - val y + (if val x < val y then (Config.p : Int) else 0)) % 2 ^ 256 ∧
    (val y ≤ val x → borrow = false ∧ carry = false ∧ (val z : Int) = (val x : Int) - val y) ∧
    (val x < val y → val y - val x ≤ Config.p →
      borrow = true ∧ carry = true ∧ val z + (val y - val x) = Config.p ∧ val z < Config.p) ∧
    (val x < val y → Config.p < val y - val x →
      borrow = true ∧ carry = false ∧ val z + (val y - val x) = 2 ^ 256 + Config.p ∧ Config.p + 1 ≤ val z)

/-- R91: on canonical operands both variants give the field difference, itself canonical. -/
def Obligations.CanonicalOperandsGiveFieldDifference : Prop :=
  ∀ x y : Quad Limb, val x < Config.p → val y < Config.p →
    (val (subCt x y) : Int) = ((val x : Int) - val y) % Config.p ∧
    (val (subBr x y) : Int) = ((val x : Int) - val y) % Config.p ∧ val (subCt x y) < Config.p

/-- R92: the two variants agree on all 4-limb inputs. -/
def Obligations.VariantsAgree : Prop :=
  ∀ x y : Quad Limb, subBr x y = subCt x y

/-- R93: without a borrow the result is the raw difference, and no modulus is added. -/
def Obligations.NoBorrowNoAddBack : Prop :=
  ∀ x y : Quad Limb, val y ≤ val x →
    (val (subCt x y) : Int) = (val x : Int) - val y ∧ bchain x y = (subCt x y, false)

/-- R94: with a borrow the modulus is added once, in 256 bits. -/
def Obligations.UnderflowAddsTheModulusOnce : Prop :=
  ∀ x y : Quad Limb, val x < val y →
    (val (subCt x y) : Int) = ((val x : Int) - val y + Config.p) % 2 ^ 256

/-- R95: equal operands give zero in both variants and no borrow, and a request with `req_x = req_y` latches both
operands. -/
def Obligations.EqualOperandsGiveZero : Prop :=
  (∀ x : Quad Limb, subCt x x = Quad.fill 0#64 ∧ subBr x x = Quad.fill 0#64 ∧ bchain x x = (Quad.fill 0#64, false)) ∧
  ∀ (o : Op) (w : Wide) (fin : Bool) (s : State), s.busy = false →
    ∃ t, exec (o.instr w w fin) s = .next t ∧ t.x = (ofPort w).map some ∧ t.y = (ofPort w).map some

/-- R82: which operand pairs give a canonical result congruent to the difference, and what happens to the others. -/
def Obligations.NonCanonicalOperands : Prop :=
  (∀ x y : Quad Limb,
    let dif : Int := (val x : Int) - val y
    let z := subCt x y
    ((val z < Config.p ∧ (val z : Int) ≡ dif [ZMOD Config.p]) ↔ -(Config.p : Int) ≤ dif ∧ dif < Config.p) ∧
    ((Config.p : Int) ≤ dif → (val z : Int) = dif ∧ Config.p ≤ val z) ∧
    (dif < -(Config.p : Int) →
      (val z : Int) = dif + Config.p + 2 ^ 256 ∧ Config.p ≤ val z ∧ ¬ (val z : Int) ≡ dif [ZMOD Config.p])) ∧
  subCt (limbs Config.p) (Quad.fill 0#64) = limbs Config.p ∧
  subCt (Quad.fill 0#64) (limbs Config.p) = Quad.fill 0#64 ∧
  subCt (Quad.fill 0#64) (limbs (Config.p + 1)) = Quad.fill (BitVec.allOnes 64)

/-- R96: the concrete scenario of the source, for both variants. -/
def Obligations.ConcreteScenario : Prop :=
  let x : Quad Limb := ⟨0#64, 0#64, 0#64, 0#64⟩
  let y : Quad Limb := ⟨1#64, 0#64, 0#64, 0#64⟩
  let z : Quad Limb := ⟨0x43e1f593f0000000#64, 0x2833e84879b97091#64, 0xb85045b68181585d#64, 0x30644e72e131a029#64⟩
  subCt x y = z ∧ subBr x y = z ∧ bchain x y = (Quad.fill 0xFFFFFFFFFFFFFFFF#64, true)

/-- R99: the value, the equivalence and the no-borrow property hold for any 4-limb modulus whatever. -/
def Obligations.AnyModulusWillDo : Prop :=
  ∀ q x y : Quad Limb,
    (val (subCtWith q x y) : Int) = ((val x : Int) - val y + (if val x < val y then (val q : Int) else 0)) % 2 ^ 256 ∧
    subBrWith q x y = subCtWith q x y ∧ (val y ≤ val x → subCtWith q x y = (bchain x y).1)

/-- R69, R77, R78: the top module, one borrow chain feeding one masked add-back, computes on its ports what `sub_ct`
computes on limbs, and the units give on theirs what R67 and R73 say. -/
def Obligations.ModulesComposeToTheTopUnit : Prop :=
  ∀ (x y d : Wide) (f : Bool),
    modularSubtractConstTime x y = toPort (subCt (ofPort x) (ofPort y)) ∧
    borrowPropagateChain x y = (x - y, decide (x < y)) ∧
    conditionalModaddBitmask d f = (if f then d + BitVec.ofNat 256 Config.p else d) ∧
    modularSubtractConstTime x y = (if x < y then x - y + BitVec.ofNat 256 Config.p else x - y)

/-! ## The commands as the host gives them -/

/-- R121: an issue to an idle block latches the request, starts the microprogram, and takes away the old result and the
transients; every other field is as before. The step makes this move when `BUSY = 0` and the host drives `req_valid = 1`
without asserting a reset. -/
def Obligations.IssueLatchesTheRequest : Prop :=
  (∀ s : State, s.ports.rst = false → s.busy = false → s.ports.reqValid = true →
    step s = exec (Op.instr (Op.ofBits s.ports.reqOp) s.ports.reqX s.ports.reqY s.ports.reqFin) s.tick) ∧
  ∀ (o : Op) (x y : Wide) (fin : Bool) (s : State), s.busy = false →
    ∃ t, exec (o.instr x y fin) s = .next t ∧
      t.op = some o ∧ t.fin = some fin ∧
      (∀ i : LimbIx, t.x.get i = some (x.extractLsb' (64 * i.val) 64) ∧ t.y.get i = some (y.extractLsb' (64 * i.val) 64)) ∧
      t.bw = some false ∧ t.cy = some false ∧ t.upc = 0#4 ∧
      (∀ i : LimbIx, t.z.get i = none ∧ t.m.get i = none) ∧ t.mask = none ∧ t.fout = none ∧
      t.busy = true ∧ t.rvalid = false ∧ t.trace = [] ∧ t.inputs = s.inputs

/-- R122: while a command is in flight a request has no effect: the issue waits, and a step does the same whether and
whatever the host asks. That the waiting request answers an unchanged state is the model's form (log entry 5). -/
def Obligations.RequestWaitsWhileBusy : Prop :=
  (∀ (o : Op) (x y : Wide) (fin : Bool) (s : State), s.busy = true → exec (o.instr x y fin) s = .next s) ∧
  ∀ (s : State) (p q : PortsIn) (rest : List PortsIn), s.busy = true → p.rst = q.rst →
    step { s with inputs := p :: rest } = step { s with inputs := q :: rest }

/-! ## The micro-operations -/

/-- R58: `SBB i`, its code, its places, its effect and its frame. -/
def Obligations.SubtractLimbStep : Prop :=
  (∀ i : LimbIx, decode (.uop (0b000#3 ++ BitVec.ofNat 2 i.val)) = .ok (.sbb i) ∧
    ∀ (o : Op) (u : BitVec 4), lookup o u = some (.sbb i) ↔ o ≠ .cmadd ∧ u.toNat = i.val) ∧
  ∀ (i : LimbIx) (s : State) (a b : Limb) (bin : Bool),
    s.x.get i = some a → s.y.get i = some b → s.bw = some bin →
    ∃ (r : Limb) (bout : Bool),
      (a.toNat : Int) - b.toNat - bin.toNat = r.toNat - bout.toNat * 2 ^ 64 ∧
      exec (.sbb i) s = .next
        { s with z := s.z.set i (some r), bw := some bout, upc := s.upc + 1#4, trace := s.trace ++ [.sbb i] }

/-- R59: `B2M`, its code, its places, its effect and its frame. -/
def Obligations.MaskStep : Prop :=
  (decode (.uop 0b00100#5) = .ok .b2m ∧
    ∀ (o : Op) (u : BitVec 4), lookup o u = some .b2m ↔ (o = .subct ∧ u = 4#4) ∨ (o = .cmadd ∧ u = 0#4)) ∧
  ∀ (s : State) (o : Op) (f : Bool),
    s.op = some o → (o = .cmadd → s.fin = some f) → (o ≠ .cmadd → s.bw = some f) →
    exec .b2m s = .next
      { s with mask := some (if f then 0xFFFFFFFFFFFFFFFF#64 else 0#64), upc := s.upc + 1#4, trace := s.trace ++ [.b2m] }

/-- R60: `AND i`, its code, its places, its effect and its frame. -/
def Obligations.MaskLimbStep : Prop :=
  (∀ i : LimbIx, decode (.uop (0b010#3 ++ BitVec.ofNat 2 i.val)) = .ok (.and i) ∧ Event.romIndex (.and i) = some i ∧
    ∀ (o : Op) (u : BitVec 4), lookup o u = some (.and i) ↔
      (o = .subct ∧ u.toNat = 5 + i.val) ∨ (o = .cmadd ∧ u.toNat = 1 + i.val)) ∧
  ∀ (i : LimbIx) (s : State) (mask : Limb), s.mask = some mask →
    exec (.and i) s = .next
      { s with m := s.m.set i (some (memRead i &&& mask)), upc := s.upc + 1#4, trace := s.trace ++ [.and i] }

/-- R61: `ADC i`, its code, its places, its effect and its frame. -/
def Obligations.AddMaskedLimbStep : Prop :=
  (∀ i : LimbIx, decode (.uop (0b011#3 ++ BitVec.ofNat 2 i.val)) = .ok (.adc i) ∧
    ∀ (o : Op) (u : BitVec 4), lookup o u = some (.adc i) ↔
      (o = .subct ∧ u.toNat = 9 + i.val) ∨ (o = .cmadd ∧ u.toNat = 5 + i.val)) ∧
  ∀ (i : LimbIx) (s : State) (o : Op) (a b : Limb) (cin : Bool),
    s.op = some o → (o = .cmadd → s.x.get i = some a) → (o ≠ .cmadd → s.z.get i = some a) →
    s.m.get i = some b → s.cy = some cin →
    ∃ (r : Limb) (cout : Bool),
      a.toNat + b.toNat + cin.toNat = r.toNat + cout.toNat * 2 ^ 64 ∧
      exec (.adc i) s = .next
        { s with z := s.z.set i (some r), cy := some cout, upc := s.upc + 1#4, trace := s.trace ++ [.adc i] }

/-- R62: `ADCP i`, its code, its places, its effect and its frame. -/
def Obligations.AddModulusLimbStep : Prop :=
  (∀ i : LimbIx, decode (.uop (0b100#3 ++ BitVec.ofNat 2 i.val)) = .ok (.adcp i) ∧ Event.romIndex (.adcp i) = some i ∧
    ∀ (o : Op) (u : BitVec 4), lookup o u = some (.adcp i) ↔ o = .subbr ∧ u.toNat = 5 + i.val) ∧
  ∀ (i : LimbIx) (s : State) (a : Limb) (cin : Bool), s.z.get i = some a → s.cy = some cin →
    ∃ (r : Limb) (cout : Bool),
      a.toNat + (memRead i).toNat + cin.toNat = r.toNat + cout.toNat * 2 ^ 64 ∧
      exec (.adcp i) s = .next
        { s with z := s.z.set i (some r), cy := some cout, upc := s.upc + 1#4, trace := s.trace ++ [.adcp i] }

/-- R86: `BR`, its code, its place, its effect and its frame; it is the only micro-operation that does not move `UPC` to a
place fixed by the one before. -/
def Obligations.BranchStep : Prop :=
  (decode (.uop 0b10100#5) = .ok .br ∧
    ∀ (o : Op) (u : BitVec 4), lookup o u = some .br ↔ o = .subbr ∧ u = 4#4) ∧
  (∀ (s : State) (t : Bool), s.bw = some t →
    exec .br s = .next { s with upc := if t then 5#4 else 9#4, trace := s.trace ++ [.br t] }) ∧
  ∀ (i : Instr) (s t : State), isMicroOp i = true → i ≠ .br → exec i s = .next t →
    t.upc = if i = .endOp then 0#4 else s.upc + 1#4

/-- R63: `END`, its code, its places, its effect and its frame. -/
def Obligations.EndStep : Prop :=
  (decode (.uop 0b11000#5) = .ok .endOp ∧
    ∀ (o : Op) (u : BitVec 4), lookup o u = some .endOp ↔ u.toNat + 1 = (microprogram o).length) ∧
  ∀ (s : State) (o : Op) (f : Bool),
    s.op = some o → (o = .bchain → s.bw = some f) → (o ≠ .bchain → f = false) →
    exec .endOp s = .next
      { s with
        fout := some f, busy := false, rvalid := true, upc := 0#4
        bw := none, cy := none, mask := none, m := Quad.fill none, trace := s.trace ++ [.endOp] }

/-- R14, R60, R61: writing one limb of a register: the limb written reads back, the others are as before. -/
def Obligations.LimbReadAfterWrite : Prop :=
  ∀ (q : Quad (Option Limb)) (i j : LimbIx) (v : Option Limb),
    (q.set i v).get j = if j = i then v else q.get j

/-- R20: a micro-operation runs exactly when every register it reads holds a value; otherwise it stops on one that does not,
and it is never refused. -/
def Obligations.MicroOpRunsExactlyOnHeldOperands : Prop :=
  ∀ (i : Instr) (s : State), isMicroOp i = true →
    ((∀ r ∈ operandRegs i s, s.holds r = true) → ∃ t, exec i s = .next t) ∧
    ((∃ r ∈ operandRegs i s, s.holds r = false) →
      ∃ r ∈ operandRegs i s, s.holds r = false ∧ exec i s = .fault (.noValue r))

/-- R11, R12, R25: no micro-operation writes an operand register, `OP` or `FIN`; each appends exactly one event; none but
`END` touches the status and the result flag. -/
def Obligations.MicroOpsKeepOperands : Prop :=
  ∀ (i : Instr) (s t : State), isMicroOp i = true → exec i s = .next t →
    t.x = s.x ∧ t.y = s.y ∧ t.op = s.op ∧ t.fin = s.fin ∧ t.inputs = s.inputs ∧
    (∃ e, t.trace = s.trace ++ [e]) ∧
    (i ≠ .endOp → t.busy = s.busy ∧ t.rvalid = s.rvalid ∧ t.fout = s.fout)

/-- R65: `SBB`, `B2M`, `AND`, `ADC` and `ADCP` read, write and record the same whatever the data: two states that agree on
the control registers and on which registers hold a value give two that agree so again, with the same event. -/
def Obligations.LimbStepsIgnoreDataValues : Prop :=
  ∀ (i : Instr) (s t s' : State), isMicroOp i = true → i ≠ .br →
    s.op = t.op → s.upc = t.upc → s.trace = t.trace → (∀ r, s.holds r = t.holds r) → exec i s = .next s' →
    ∃ t', exec i t = .next t' ∧ s'.op = t'.op ∧ s'.upc = t'.upc ∧ s'.trace = t'.trace ∧ ∀ r, s'.holds r = t'.holds r

/-! ## The step -/

/-- R57: while a command is in flight and no reset is asserted, a step runs the micro-operation the microprogram of `OP` has
at `UPC`, on the state whose next port values stand on the ports. -/
def Obligations.StepRunsTheMicroOperation : Prop :=
  ∀ (s : State) (o : Op) (c : BitVec 5) (i : Instr),
    s.ports.rst = false → s.busy = true → s.op = some o →
    (microprogram o)[s.upc.toNat]? = some c → decode (.uop c) = .ok i → step s = exec i s.tick

/-- R121: while none is in flight, `req_valid` is 1 and no reset is asserted, a step runs the command the request word on the
ports decodes to. -/
def Obligations.StepRunsTheRequest : Prop :=
  ∀ (s : State) (i : Instr), s.ports.rst = false → s.busy = false → s.ports.reqValid = true →
    decode (.req (packReq s.ports.reqOp s.ports.reqFin s.ports.reqY s.ports.reqX)) = .ok i → step s = exec i s.tick

/-- R124: a reset is enabled in every state, overrides a step and an issue, and leaves the state of R115. -/
def Obligations.ResetOverridesEverything : Prop :=
  ∀ s : State, s.ports.rst = true → step s = .next { State.reset with inputs := s.inputs.tail }

/-- R24, R115: the reset values; after reset the block is idle, ready and without a result, and no step is enabled, whatever
the host drives. -/
def Obligations.ResetValues : Prop :=
  State.reset.busy = false ∧ State.reset.rvalid = false ∧ State.reset.upc = 0#4 ∧
  (∀ i : LimbIx, State.reset.x.get i = none ∧ State.reset.y.get i = none ∧ State.reset.z.get i = none ∧
    State.reset.m.get i = none) ∧
  State.reset.mask = none ∧ State.reset.bw = none ∧ State.reset.cy = none ∧ State.reset.op = none ∧
  State.reset.fin = none ∧ State.reset.fout = none ∧ State.reset.trace = [] ∧
  memRead 0 = Config.modulus.l0 ∧ memRead 1 = Config.modulus.l1 ∧ memRead 2 = Config.modulus.l2 ∧
  memRead 3 = Config.modulus.l3 ∧ State.reset.reqReady = true ∧ State.reset.rspValid = false ∧
  NoStepEnabled State.reset

/-- R109, R113, R123: an idle block holds its registers for as long as the host neither issues nor resets, so a result stands
and can be read again. That an idle step answers a next state is the model's form (log entry 1, DEDUCED). The last clause, that
nothing at all happens next at `State.reset`, rests besides on the model's choice that the host asks for nothing there: `inputs`
is empty at reset (log entry 2, DESIGN CHOICE), which no rule says. -/
def Obligations.IdleBlockHolds : Prop :=
  (∀ (k : Nat) (s : State), s.busy = false → (∀ p ∈ s.inputs.take k, p.rst = false ∧ p.reqValid = false) →
    ∃ t, steps k s = .next t ∧ t = { s with inputs := s.inputs.drop k } ∧ t.hostRead = s.hostRead) ∧
  nextMove State.reset = .hold

/-- After a reset, whatever was in flight, no result appears until a command is issued again: the state of R115, and what R116
says of a command in flight. That the `k` idle steps after the reset exist, each a next state in which every register holds, is
the model's form (log entry 1, DEDUCED) and is said by neither rule. -/
def Obligations.ResetAbortsTheCommand : Prop :=
  ∀ (k : Nat) (s : State), s.ports.rst = true → (∀ p ∈ s.inputs.tail.take k, p.reqValid = false) →
    ∃ t, steps (k + 1) s = .next t ∧ t = { State.reset with inputs := s.inputs.drop (k + 1) } ∧ t.rvalid = false

/-! ## The invariant -/

/-- The state after reset meets the invariant (R24, R115). -/
def Obligations.InvariantAtReset : Prop := State.reset.Inv

/-- Every step from a state that meets the invariant gives one that meets it (R16 to R20, R22, R23). -/
def Obligations.InvariantKeptByEveryStep : Prop :=
  ∀ s t : State, s.Inv → step s = .next t → t.Inv

/-- R57, R100: from a state that meets the invariant every step gives a next state: the block raises no exception, refuses
nothing and never reads a register without a value. -/
def Obligations.StepNeverStops : Prop :=
  ∀ s : State, s.Inv → ∃ t, step s = .next t

/-- R18, R45, R122, R123: `BUSY` and `RVALID` are never both 1, a result can be read exactly while `RVALID` is 1, and the
response word holds it. -/
def Obligations.ReadEnabledExactlyWhenResultValid : Prop :=
  ∀ s : State, s.Inv →
    (s.busy && s.rvalid) = false ∧ s.hostRead.isSome = s.rvalid ∧ s.rsp.isSome = s.rvalid ∧
    ∀ z f w, s.hostRead = some (z, f) → s.rsp = some w →
      w.getLsbD 256 = f ∧ w.toNat % 2 ^ 256 = val z ∧ s.z = z.map some ∧ s.fout = some f

/-- R19: the largest value `UPC` reaches under each command, and 0 while the block is idle. -/
def Obligations.CounterStaysInTheMicroprogram : Prop :=
  ∀ s : State, s.Inv →
    (s.busy = false → s.upc = 0#4) ∧
    (s.busy = true → ∃ o, s.op = some o ∧
      s.upc.toNat ≤ (match o with | .subct => 13 | .bchain => 4 | .cmadd => 9 | .subbr => 9))

/-- R41: the memory-access pattern of the command whose result stands. -/
def Obligations.RomAccessPattern : Prop :=
  ∀ (s : State) (o : Op), s.Inv → s.rvalid = true → s.op = some o →
    (o = .subct ∨ o = .cmadd → romReads s.trace = [0, 1, 2, 3]) ∧
    (o = .bchain → romReads s.trace = []) ∧
    (o = .subbr → (romReads s.trace = [0, 1, 2, 3] ∧ Event.br true ∈ s.trace) ∨
      (romReads s.trace = [] ∧ Event.br false ∈ s.trace))

/-- R126: a command in flight comes to its end within 14 steps unless a reset intervenes. -/
def Obligations.EveryCommandEnds : Prop :=
  ∀ s : State, s.Inv → s.busy = true → (∀ p ∈ s.inputs.take 14, p.rst = false) →
    ∃ k t, k ≤ 14 ∧ steps k s = .next t ∧ t.busy = false ∧ t.rvalid = true ∧ t.op = s.op

/-! ## Whole commands -/

/-- R68: `BCHAIN` from its issue to its end. -/
def Obligations.BorrowChainCommand : Prop :=
  Op.bits .bchain = 1#2 ∧
  (microprogram .bchain).map (fun c => (decodeUop c).toOption) =
    [some (.sbb 0), some (.sbb 1), some (.sbb 2), some (.sbb 3), some .endOp] ∧
  RunsToResult .bchain

/-- R74: `CMADD` from its issue to its end. -/
def Obligations.MaskedAddBackCommand : Prop :=
  Op.bits .cmadd = 2#2 ∧
  (microprogram .cmadd).map (fun c => (decodeUop c).toOption) =
    [some .b2m, some (.and 0), some (.and 1), some (.and 2), some (.and 3), some (.adc 0), some (.adc 1), some (.adc 2),
      some (.adc 3), some .endOp] ∧
  RunsToResult .cmadd

/-- R79: `SUBCT` from its issue to its end. -/
def Obligations.ConstantTimeSubtractCommand : Prop :=
  Op.bits .subct = 0#2 ∧
  (microprogram .subct).map (fun c => (decodeUop c).toOption) =
    [some (.sbb 0), some (.sbb 1), some (.sbb 2), some (.sbb 3), some .b2m, some (.and 0), some (.and 1), some (.and 2),
      some (.and 3), some (.adc 0), some (.adc 1), some (.adc 2), some (.adc 3), some .endOp] ∧
  RunsToResult .subct

/-- R87: `SUBBR` from its issue to its end. -/
def Obligations.BranchingSubtractCommand : Prop :=
  Op.bits .subbr = 3#2 ∧
  (microprogram .subbr).map (fun c => (decodeUop c).toOption) =
    [some (.sbb 0), some (.sbb 1), some (.sbb 2), some (.sbb 3), some .br, some (.adcp 0), some (.adcp 1), some (.adcp 2),
      some (.adcp 3), some .endOp] ∧
  RunsToResult .subbr

/-- R128: steps, limb operations and ROM reads of each command. -/
def Obligations.StepCounts : Prop :=
  ∀ (o : Op) (borrow : Bool),
    let t := commandTrace o borrow
    t.length = commandSteps o borrow ∧
    (t.length, t.countP Event.isLimbOp, (romReads t).length) =
      (match o, borrow with
        | .subct, _ => (14, 8, 4)
        | .bchain, _ => (5, 4, 0)
        | .cmadd, _ => (10, 4, 4)
        | .subbr, false => (6, 4, 0)
        | .subbr, true => (10, 8, 4))

/-- R97: the trace of a command run to its end does not depend on the operands, but for `SUBBR`, where it depends on whether
the first operand is below the second and on nothing else. -/
def Obligations.TraceIndependentOfOperands : Prop :=
  ∀ (o : Op) (s s' : State) (x y x' y' : Wide) (fin fin' : Bool),
    s.busy = false → s'.busy = false →
    s.inputs = [PortsIn.request o x y fin] → s'.inputs = [PortsIn.request o x' y' fin'] →
    let lt := decide (val (ofPort x) < val (ofPort y))
    let lt' := decide (val (ofPort x') < val (ofPort y'))
    ∃ t t', steps (commandSteps o lt + 1) s = .next t ∧ steps (commandSteps o lt' + 1) s' = .next t' ∧
      t.rvalid = true ∧ t'.rvalid = true ∧
      (o ≠ .subbr → t.trace = t'.trace) ∧ (o = .subbr → (t.trace = t'.trace ↔ lt = lt'))

/-- R83, R97: one step at a time: of two states that meet the invariant and that an observer of control flow and memory
accesses cannot tell apart, no `SUBBR` being in flight, each has a next state and these cannot be told apart either. -/
def Obligations.ConstantTimeStepByStep : Prop :=
  ∀ a b : State, a.Inv → b.Inv → LowEq a b → (a.busy = true → a.op ≠ some .subbr) →
    ∃ a' b', step a = .next a' ∧ step b = .next b' ∧ LowEq a' b'

/-- R88: a `SUBBR` in flight at its branch gives the borrow away: two states that differ in `BW` alone go to different places
with different events. -/
def Obligations.BranchGivesTheBorrowAway : Prop :=
  ∀ s : State, s.ports.rst = false → s.busy = true → s.op = some .subbr → s.upc = 4#4 →
    ∃ t0 t1, step { s with bw := some false } = .next t0 ∧ step { s with bw := some true } = .next t1 ∧
      t0.upc = 9#4 ∧ t1.upc = 5#4 ∧ t0.trace ≠ t1.trace

/-- R84: `BCHAIN` and then `CMADD` on what was read from it leave the value `SUBCT` leaves, and the traces join to that of
`SUBCT`. -/
def Obligations.ChainThenAddBackEqualsSubct : Prop :=
  ∀ (s1 s2 s3 : State) (x y w : Wide) (fin fin' : Bool), s1.busy = false → s2.busy = false → s3.busy = false →
    s1.inputs = [PortsIn.request .bchain x y fin] →
    s3.inputs = [PortsIn.request .subct x y fin'] →
    ∃ t1 t3 d f, steps 6 s1 = .next t1 ∧ t1.hostRead = some (d, f) ∧ steps 15 s3 = .next t3 ∧
      (s2.inputs = [PortsIn.request .cmadd (toPort d) w f] →
        ∃ t2 z, steps 11 s2 = .next t2 ∧ t2.hostRead = some (z, false) ∧ t3.hostRead = some (z, false) ∧
          t3.trace = t1.trace.dropLast ++ t2.trace.dropLast ++ [.endOp])

/-- R129, with the syntax of R51: a run of a program from any idle block, whatever the host drives while a command is in flight
(anything but a reset). While `BUSY` is 1 it is not over. When it is over, its outcome is that of the program at the function
level, the traces of a program without `SUBBR` depend on its command codes alone, and the block is idle with the last result
standing and no step enabled. Where the commands' variables have values it can always go on to its end. The form of a run is the
model's (log entry 20, DEDUCED: names of variables, each result read once). -/
def Obligations.RunOfAProgram : Prop :=
  ∀ (prog : Program) (v : Vars) (s : State) (ms : List RunMove) (r : Run),
    s.busy = false → Run.moves ms (Run.start prog v s) = some r →
    (r.block.busy = true → r.over = false) ∧
    (r.over = true →
      programOutcome prog v = some r.outcome ∧
      ((∀ c ∈ prog, c.op ≠ .subbr) → r.traces = prog.map fun c => commandTrace c.op false) ∧
      (prog ≠ [] →
        r.block.busy = false ∧ r.block.rvalid = true ∧ r.block.hostRead = r.reads.getLast? ∧ NoStepEnabled r.block)) ∧
    (programOutcome prog v ≠ none → ∃ ms' r', Run.moves ms' r = some r' ∧ r'.over = true)
end

