-- ==== Sys2Proof/Laws/Flags.lean ====
section
/-! SUPPORT. Laws/Flags.lean: what the three functions of one limb compute, said once. -/

namespace Sys2Proof.Machine

/-- Subtract-with-borrow loses nothing: what the 64 bits cannot hold is in the borrow (R54, R64). -/
theorem sbb_loses_nothing (a b : Limb) (bin : Bool) :
    a.toNat + (sbb a b bin).2.toNat * 2 ^ 64 = (sbb a b bin).1.toNat + b.toNat + bin.toNat := by
  have ha := a.isLt
  have hb := b.isLt
  have hc : bin.toNat ≤ 1 := by cases bin <;> decide
  simp only [sbb, BitVec.toNat_ofInt]
  by_cases h : (a.toNat : Int) - b.toNat - bin.toNat < 0
  · simp only [h, decide_true, Bool.toNat_true]
    omega
  · simp only [h, decide_false, Bool.toNat_false]
    omega

/-- Add-with-carry loses nothing: what the 64 bits cannot hold is in the carry (R55, R64). -/
theorem adc_loses_nothing (a b : Limb) (cin : Bool) :
    a.toNat + b.toNat + cin.toNat = (adc a b cin).1.toNat + (adc a b cin).2.toNat * 2 ^ 64 := by
  have ha := a.isLt
  have hb := b.isLt
  have hc : cin.toNat ≤ 1 := by cases cin <;> decide
  simp only [adc, BitVec.toNat_ofNat]
  by_cases h : 2 ^ 64 - 1 < a.toNat + b.toNat + cin.toNat
  · simp only [h, decide_true, Bool.toNat_true]
    omega
  · simp only [h, decide_false, Bool.toNat_false]
    omega

@[simp] theorem b2m_true : b2m true = BitVec.allOnes 64 := by decide

@[simp] theorem b2m_false : b2m false = 0#64 := by decide

end Sys2Proof.Machine
end

