-- ==== Sys2Proof/Laws/State.lean ====
section
/-! SUPPORT. Laws/State.lean: one lemma per field per update of the state, each true by definition. -/

namespace Sys2Proof.Machine

variable (s : State) (e : Event) (f : Bool)

@[simp] theorem State.emit_x : (s.emit e).x = s.x := rfl
@[simp] theorem State.emit_y : (s.emit e).y = s.y := rfl
@[simp] theorem State.emit_z : (s.emit e).z = s.z := rfl
@[simp] theorem State.emit_m : (s.emit e).m = s.m := rfl
@[simp] theorem State.emit_mask : (s.emit e).mask = s.mask := rfl
@[simp] theorem State.emit_bw : (s.emit e).bw = s.bw := rfl
@[simp] theorem State.emit_cy : (s.emit e).cy = s.cy := rfl
@[simp] theorem State.emit_op : (s.emit e).op = s.op := rfl
@[simp] theorem State.emit_fin : (s.emit e).fin = s.fin := rfl
@[simp] theorem State.emit_fout : (s.emit e).fout = s.fout := rfl
@[simp] theorem State.emit_upc : (s.emit e).upc = s.upc := rfl
@[simp] theorem State.emit_busy : (s.emit e).busy = s.busy := rfl
@[simp] theorem State.emit_rvalid : (s.emit e).rvalid = s.rvalid := rfl
@[simp] theorem State.emit_trace : (s.emit e).trace = s.trace ++ [e] := rfl
@[simp] theorem State.emit_inputs : (s.emit e).inputs = s.inputs := rfl

@[simp] theorem State.advance_x : (s.advance e).x = s.x := rfl
@[simp] theorem State.advance_y : (s.advance e).y = s.y := rfl
@[simp] theorem State.advance_z : (s.advance e).z = s.z := rfl
@[simp] theorem State.advance_m : (s.advance e).m = s.m := rfl
@[simp] theorem State.advance_mask : (s.advance e).mask = s.mask := rfl
@[simp] theorem State.advance_bw : (s.advance e).bw = s.bw := rfl
@[simp] theorem State.advance_cy : (s.advance e).cy = s.cy := rfl
@[simp] theorem State.advance_op : (s.advance e).op = s.op := rfl
@[simp] theorem State.advance_fin : (s.advance e).fin = s.fin := rfl
@[simp] theorem State.advance_fout : (s.advance e).fout = s.fout := rfl
@[simp] theorem State.advance_upc : (s.advance e).upc = s.upc + 1#4 := rfl
@[simp] theorem State.advance_busy : (s.advance e).busy = s.busy := rfl
@[simp] theorem State.advance_rvalid : (s.advance e).rvalid = s.rvalid := rfl
@[simp] theorem State.advance_trace : (s.advance e).trace = s.trace ++ [e] := rfl
@[simp] theorem State.advance_inputs : (s.advance e).inputs = s.inputs := rfl

@[simp] theorem State.tick_x : (s.tick).x = s.x := rfl
@[simp] theorem State.tick_y : (s.tick).y = s.y := rfl
@[simp] theorem State.tick_z : (s.tick).z = s.z := rfl
@[simp] theorem State.tick_m : (s.tick).m = s.m := rfl
@[simp] theorem State.tick_mask : (s.tick).mask = s.mask := rfl
@[simp] theorem State.tick_bw : (s.tick).bw = s.bw := rfl
@[simp] theorem State.tick_cy : (s.tick).cy = s.cy := rfl
@[simp] theorem State.tick_op : (s.tick).op = s.op := rfl
@[simp] theorem State.tick_fin : (s.tick).fin = s.fin := rfl
@[simp] theorem State.tick_fout : (s.tick).fout = s.fout := rfl
@[simp] theorem State.tick_upc : (s.tick).upc = s.upc := rfl
@[simp] theorem State.tick_busy : (s.tick).busy = s.busy := rfl
@[simp] theorem State.tick_rvalid : (s.tick).rvalid = s.rvalid := rfl
@[simp] theorem State.tick_trace : (s.tick).trace = s.trace := rfl
@[simp] theorem State.tick_inputs : (s.tick).inputs = s.inputs.tail := rfl

@[simp] theorem State.resetMove_x : (s.resetMove).x = Quad.fill none := rfl
@[simp] theorem State.resetMove_y : (s.resetMove).y = Quad.fill none := rfl
@[simp] theorem State.resetMove_z : (s.resetMove).z = Quad.fill none := rfl
@[simp] theorem State.resetMove_m : (s.resetMove).m = Quad.fill none := rfl
@[simp] theorem State.resetMove_mask : (s.resetMove).mask = none := rfl
@[simp] theorem State.resetMove_bw : (s.resetMove).bw = none := rfl
@[simp] theorem State.resetMove_cy : (s.resetMove).cy = none := rfl
@[simp] theorem State.resetMove_op : (s.resetMove).op = none := rfl
@[simp] theorem State.resetMove_fin : (s.resetMove).fin = none := rfl
@[simp] theorem State.resetMove_fout : (s.resetMove).fout = none := rfl
@[simp] theorem State.resetMove_upc : (s.resetMove).upc = 0#4 := rfl
@[simp] theorem State.resetMove_busy : (s.resetMove).busy = false := rfl
@[simp] theorem State.resetMove_rvalid : (s.resetMove).rvalid = false := rfl
@[simp] theorem State.resetMove_trace : (s.resetMove).trace = [] := rfl
@[simp] theorem State.resetMove_inputs : (s.resetMove).inputs = s.inputs := rfl

@[simp] theorem State.finish_x : (s.finish f).x = s.x := rfl
@[simp] theorem State.finish_y : (s.finish f).y = s.y := rfl
@[simp] theorem State.finish_z : (s.finish f).z = s.z := rfl
@[simp] theorem State.finish_m : (s.finish f).m = Quad.fill none := rfl
@[simp] theorem State.finish_mask : (s.finish f).mask = none := rfl
@[simp] theorem State.finish_bw : (s.finish f).bw = none := rfl
@[simp] theorem State.finish_cy : (s.finish f).cy = none := rfl
@[simp] theorem State.finish_op : (s.finish f).op = s.op := rfl
@[simp] theorem State.finish_fin : (s.finish f).fin = s.fin := rfl
@[simp] theorem State.finish_fout : (s.finish f).fout = some f := rfl
@[simp] theorem State.finish_upc : (s.finish f).upc = 0#4 := rfl
@[simp] theorem State.finish_busy : (s.finish f).busy = false := rfl
@[simp] theorem State.finish_rvalid : (s.finish f).rvalid = true := rfl
@[simp] theorem State.finish_trace : (s.finish f).trace = s.trace ++ [.endOp] := rfl
@[simp] theorem State.finish_inputs : (s.finish f).inputs = s.inputs := rfl

end Sys2Proof.Machine
end

