-- ==== Sys2Proof/Laws/Ops.lean ====
section
/-! SUPPORT. Laws/Ops.lean: what the shared operations can answer. -/

namespace Sys2Proof.Machine

variable {α : Type}

@[simp] theorem readReg_some (r : Reg) (a : α) (k : α → Host.Outcome State Fault Refusal) :
    readReg r (some a) k = k a := rfl

@[simp] theorem readReg_none (r : Reg) (k : α → Host.Outcome State Fault Refusal) :
    readReg r none k = .fault (.noValue r) := rfl

/-- A read that leads to a next state found a value. -/
theorem readReg_eq_next {r : Reg} {v : Option α} {k : α → Host.Outcome State Fault Refusal} {t : State}
    (h : readReg r v k = .next t) : ∃ a, v = some a ∧ k a = .next t := by
  cases v with
  | none => cases h
  | some a => exact ⟨a, rfl, h⟩

/-- The state an issue leaves. -/
theorem issue_of_idle (o : Op) (x y : Wide) (fin : Bool) (s : State) (h : s.busy = false) :
    issue o x y fin s = .next
      { s with
        op := some o, fin := some fin, x := (ofPort x).map some, y := (ofPort y).map some
        bw := some false, cy := some false, upc := 0#4
        z := Quad.fill none, m := Quad.fill none, mask := none, fout := none
        busy := true, rvalid := false, trace := [] } := by
  simp [issue, h]

/-- A request waits while a command is in flight. -/
theorem issue_of_busy (o : Op) (x y : Wide) (fin : Bool) (s : State) (h : s.busy = true) :
    issue o x y fin s = .next s := by
  simp [issue, h]

end Sys2Proof.Machine
end

