-- ==== Sys2Proof/Laws/MicroOps.lean ====
section
/-! SUPPORT. Laws/MicroOps.lean: for each micro-operation, everything a next state it answers can be. -/

namespace Sys2Proof.Machine

variable {s t : State}

theorem execSbb_inv {i : LimbIx} (h : execSbb i s = .next t) :
    ∃ a b c, s.x.get i = some a ∧ s.y.get i = some b ∧ s.bw = some c ∧
      t = State.advance { s with z := s.z.set i (some (sbb a b c).1), bw := some (sbb a b c).2 } (.sbb i) := by
  obtain ⟨a, ha, h⟩ := readReg_eq_next h
  obtain ⟨b, hb, h⟩ := readReg_eq_next h
  obtain ⟨c, hc, h⟩ := readReg_eq_next h
  cases h
  exact ⟨a, b, c, ha, hb, hc, rfl⟩

theorem execB2m_inv (h : execB2m s = .next t) :
    ∃ o f, s.op = some o ∧ (if o = .cmadd then s.fin else s.bw) = some f ∧
      t = State.advance { s with mask := some (b2m f) } .b2m := by
  obtain ⟨o, ho, h⟩ := readReg_eq_next h
  obtain ⟨f, hf, h⟩ := readReg_eq_next h
  cases h
  exact ⟨o, f, ho, hf, rfl⟩

theorem execAnd_inv {i : LimbIx} (h : execAnd i s = .next t) :
    ∃ v, s.mask = some v ∧ t = State.advance { s with m := s.m.set i (some (memRead i &&& v)) } (.and i) := by
  obtain ⟨v, hv, h⟩ := readReg_eq_next h
  cases h
  exact ⟨v, hv, rfl⟩

theorem execAdc_inv {i : LimbIx} (h : execAdc i s = .next t) :
    ∃ o a b c, s.op = some o ∧ (if o = .cmadd then s.x.get i else s.z.get i) = some a ∧
      s.m.get i = some b ∧ s.cy = some c ∧
      t = State.advance { s with z := s.z.set i (some (adc a b c).1), cy := some (adc a b c).2 } (.adc i) := by
  obtain ⟨o, ho, h⟩ := readReg_eq_next h
  obtain ⟨a, ha, h⟩ := readReg_eq_next h
  obtain ⟨b, hb, h⟩ := readReg_eq_next h
  obtain ⟨c, hc, h⟩ := readReg_eq_next h
  cases h
  exact ⟨o, a, b, c, ho, ha, hb, hc, rfl⟩

theorem execAdcp_inv {i : LimbIx} (h : execAdcp i s = .next t) :
    ∃ a c, s.z.get i = some a ∧ s.cy = some c ∧
      t = State.advance
        { s with z := s.z.set i (some (adc a (memRead i) c).1), cy := some (adc a (memRead i) c).2 } (.adcp i) := by
  obtain ⟨a, ha, h⟩ := readReg_eq_next h
  obtain ⟨c, hc, h⟩ := readReg_eq_next h
  cases h
  exact ⟨a, c, ha, hc, rfl⟩

theorem execBr_inv (h : execBr s = .next t) :
    ∃ c, s.bw = some c ∧ t = { s.emit (.br c) with upc := if c then 5#4 else 9#4 } := by
  obtain ⟨c, hc, h⟩ := readReg_eq_next h
  cases h
  exact ⟨c, hc, rfl⟩

theorem execEnd_inv (h : execEnd s = .next t) :
    ∃ o f, s.op = some o ∧ (o = .bchain → s.bw = some f) ∧ (o ≠ .bchain → f = false) ∧ t = s.finish f := by
  obtain ⟨o, ho, h⟩ := readReg_eq_next h
  by_cases hb : o = .bchain
  · rw [if_pos hb] at h
    obtain ⟨f, hf, h⟩ := readReg_eq_next h
    cases h
    exact ⟨o, f, ho, fun _ => hf, fun hn => absurd hb hn, rfl⟩
  · rw [if_neg hb] at h
    cases h
    exact ⟨o, false, ho, fun hp => absurd hp hb, fun _ => rfl, rfl⟩

end Sys2Proof.Machine
end

