-- ==== Sys2Proof/Laws/Operands.lean ====
section
/-! SUPPORT. Laws/Operands.lean: what reading, writing and counting limbs does. -/

namespace Sys2Proof

variable {α β : Type}

@[simp] theorem Quad.get_zero (q : Quad α) : q.get 0 = q.l0 := rfl
@[simp] theorem Quad.get_one (q : Quad α) : q.get 1 = q.l1 := rfl
@[simp] theorem Quad.get_two (q : Quad α) : q.get 2 = q.l2 := rfl
@[simp] theorem Quad.get_three (q : Quad α) : q.get 3 = q.l3 := rfl
@[simp] theorem Quad.set_zero (q : Quad α) (v : α) : q.set 0 v = ⟨v, q.l1, q.l2, q.l3⟩ := rfl
@[simp] theorem Quad.set_one (q : Quad α) (v : α) : q.set 1 v = ⟨q.l0, v, q.l2, q.l3⟩ := rfl
@[simp] theorem Quad.set_two (q : Quad α) (v : α) : q.set 2 v = ⟨q.l0, q.l1, v, q.l3⟩ := rfl
@[simp] theorem Quad.set_three (q : Quad α) (v : α) : q.set 3 v = ⟨q.l0, q.l1, q.l2, v⟩ := rfl

theorem Quad.get_set_self (q : Quad α) (i : LimbIx) (v : α) : (q.set i v).get i = v := by
  fin_cases i <;> rfl

theorem Quad.get_set_of_ne (q : Quad α) {i j : LimbIx} (v : α) (h : j ≠ i) : (q.set i v).get j = q.get j := by
  fin_cases i <;> fin_cases j <;> first | rfl | exact absurd rfl h

@[simp] theorem Quad.get_fill (v : α) (i : LimbIx) : (Quad.fill v).get i = v := by
  fin_cases i <;> rfl

@[simp] theorem Quad.get_map (f : α → β) (q : Quad α) (i : LimbIx) : (q.map f).get i = f (q.get i) := by
  fin_cases i <;> rfl

@[simp] theorem Quad.values_map_some (q : Quad α) : (q.map some).values = some q := rfl

/-- All four limbs hold a value exactly when the register is that of a 4-limb value. -/
theorem Quad.values_eq_some_iff (q : Quad (Option α)) (v : Quad α) : q.values = some v ↔ q = v.map some := by
  constructor
  · intro h
    obtain ⟨a, b, c, d⟩ := q
    cases a <;> cases b <;> cases c <;> cases d <;> simp [Quad.values] at h
    subst h
    rfl
  · rintro rfl
    rfl

theorem Quad.values_isSome_iff (q : Quad (Option α)) : q.values.isSome = true ↔ ∀ i : LimbIx, (q.get i).isSome = true := by
  obtain ⟨a, b, c, d⟩ := q
  simp only [Fin.forall_fin_succ, Fin.forall_fin_zero]
  cases a <;> cases b <;> cases c <;> cases d <;> simp [Quad.values, Quad.get]

namespace Machine

/-- Two 4-limb values with the same number are the same. -/
theorem val_injective (a b : Quad Limb) (h : val a = val b) : a = b := by
  obtain ⟨a0, a1, a2, a3⟩ := a
  obtain ⟨b0, b1, b2, b3⟩ := b
  simp only [val] at h
  have := a0.isLt; have := a1.isLt; have := a2.isLt; have := a3.isLt
  have := b0.isLt; have := b1.isLt; have := b2.isLt; have := b3.isLt
  have h0 : a0 = b0 := BitVec.eq_of_toNat_eq (by omega)
  have h1 : a1 = b1 := BitVec.eq_of_toNat_eq (by omega)
  have h2 : a2 = b2 := BitVec.eq_of_toNat_eq (by omega)
  have h3 : a3 = b3 := BitVec.eq_of_toNat_eq (by omega)
  rw [h0, h1, h2, h3]

end Machine

end Sys2Proof
end

