-- ==== Sys2Proof/Laws/Step.lean ====
section
/-! SUPPORT. Laws/Step.lean: everything one step can do, and how several steps follow one another. -/

namespace Sys2Proof.Machine

/-- What stands on the ports when the host's next port values are `p`. -/
@[simp] theorem State.ports_cons (s : State) (p : PortsIn) (rest : List PortsIn) (h : s.inputs = p :: rest) :
    s.ports = p := by
  simp [State.ports, h]

/-- A request word decodes to the command it was packed from. -/
theorem decodeReq_packReq (op : BitVec 2) (fin : Bool) (y x : Wide) :
    decodeReq (packReq op fin y x) = (Op.ofBits op).instr x y fin := by
  have hx : (packReq op fin y x).extractLsb' 0 256 = x := by
    ext i hi
    simp only [packReq, BitVec.getElem_extractLsb', BitVec.getLsbD_append, Nat.zero_add, hi, if_true,
      BitVec.getLsbD_eq_getElem hi]
  have hy : (packReq op fin y x).extractLsb' 256 256 = y := by
    ext i hi
    have h1 : ¬ 256 + i < 256 := by omega
    have h2 : 256 + i - 256 = i := by omega
    simp only [packReq, BitVec.getElem_extractLsb', BitVec.getLsbD_append, h1, h2, hi, if_false, if_true,
      BitVec.getLsbD_eq_getElem hi]
  have hf : (packReq op fin y x).getLsbD 512 = fin := by
    have h1 : ¬ 512 < 256 := by omega
    have h2 : ¬ 512 - 256 < 256 := by omega
    have h3 : 512 - 256 - 256 < 1 := by omega
    have h4 : 512 - 256 - 256 = 0 := by omega
    simp only [packReq, BitVec.getLsbD_append, h1, h2, h3, h4, if_false, if_true]
    cases fin <;> rfl
  have ho : (packReq op fin y x).extractLsb' 513 2 = op := by
    ext i hi
    have h1 : ¬ 513 + i < 256 := by omega
    have h2 : ¬ 513 + i - 256 < 256 := by omega
    have h3 : 513 + i - 256 - 256 = i + 1 := by omega
    have h4 : ¬ i + 1 < 1 := Nat.not_lt.mpr (Nat.le_add_left 1 i)
    simp only [packReq, BitVec.getElem_extractLsb', BitVec.getLsbD_append, h1, h2, h3, h4, if_false, Nat.add_sub_cancel,
      BitVec.getLsbD_eq_getElem hi]
  simp only [decodeReq, hx, hy, hf, ho]

@[simp] theorem Op.ofBits_bits (o : Op) : Op.ofBits o.bits = o := by
  cases o <;> rfl

theorem Op.bits_ofBits (b : BitVec 2) : (Op.ofBits b).bits = b := by
  revert b
  decide

/-- Issuing command `o` is what the instruction of `o` means. -/
@[simp] theorem exec_instr (o : Op) (x y : Wide) (fin : Bool) (s : State) :
    exec (o.instr x y fin) s = issue o x y fin s := by
  cases o <;> rfl

/-- The micro-operations of a command in order, as the tables of R68, R74, R79 and R87 list them. -/
def microOps : Op → List Instr
  | .subct =>
    [.sbb 0, .sbb 1, .sbb 2, .sbb 3, .b2m, .and 0, .and 1, .and 2, .and 3, .adc 0, .adc 1, .adc 2, .adc 3, .endOp]
  | .bchain => [.sbb 0, .sbb 1, .sbb 2, .sbb 3, .endOp]
  | .cmadd => [.b2m, .and 0, .and 1, .and 2, .and 3, .adc 0, .adc 1, .adc 2, .adc 3, .endOp]
  | .subbr => [.sbb 0, .sbb 1, .sbb 2, .sbb 3, .br, .adcp 0, .adcp 1, .adcp 2, .adcp 3, .endOp]

/-- Looking up a place of a microprogram is reading the list of its micro-operations. -/
theorem lookup_eq_microOps (o : Op) (upc : BitVec 4) : lookup o upc = (microOps o)[upc.toNat]? := by
  revert upc
  cases o <;> decide

/-- A step of a command in flight: the micro-operation at its place, unless the host resets. -/
theorem step_of_busy {s : State} {o : Op} {i : Instr} (hr : s.ports.rst = false) (hb : s.busy = true)
    (ho : s.op = some o) (hl : lookup o s.upc = some i) : step s = exec i s.tick := by
  simp [step, nextMove, hr, hb, ho, hl]

/-- A step of an idle block whose host asks for nothing. -/
theorem step_of_idle {s : State} (hr : s.ports.rst = false) (hb : s.busy = false) (hv : s.ports.reqValid = false) :
    step s = .next s.tick := by
  simp [step, nextMove, hr, hb, hv]

/-- A step of an idle block whose host asks for a command. -/
theorem step_of_request {s : State} (hr : s.ports.rst = false) (hb : s.busy = false) (hv : s.ports.reqValid = true) :
    step s = issue (Op.ofBits s.ports.reqOp) s.ports.reqX s.ports.reqY s.ports.reqFin s.tick := by
  simp [step, nextMove, hr, hb, hv, decodeReq_packReq]

/-- A step under reset. -/
theorem step_of_reset {s : State} (hr : s.ports.rst = true) : step s = .next s.tick.resetMove := by
  simp [step, nextMove, hr]

/-- Where the host does not reset in its next `k + 1` port values, it does not reset now nor in the `k` after. -/
theorem ports_of_take (s : State) (k : Nat) (h : ∀ p ∈ s.inputs.take (k + 1), p.rst = false) :
    s.ports.rst = false ∧ ∀ p ∈ s.tick.inputs.take k, p.rst = false := by
  cases hi : s.inputs with
  | nil => simp [State.ports, State.tick, hi, PortsIn.quiet]
  | cons q r =>
    rw [hi] at h
    refine ⟨by simpa [State.ports, hi] using h q (by simp), fun p hp => h p ?_⟩
    simp only [State.tick, hi, List.tail_cons] at hp
    simp [hp]

/-- Everything a next state of one step can be. -/
theorem step_cases {s t : State} (h : step s = .next t) :
    (s.ports.rst = true ∧ t = s.tick.resetMove) ∨
    (s.ports.rst = false ∧ s.busy = true ∧ ∃ o i, s.op = some o ∧ lookup o s.upc = some i ∧ exec i s.tick = .next t) ∨
    (s.ports.rst = false ∧ s.busy = false ∧ s.ports.reqValid = true ∧
      issue (Op.ofBits s.ports.reqOp) s.ports.reqX s.ports.reqY s.ports.reqFin s.tick = .next t) ∨
    (s.ports.rst = false ∧ s.busy = false ∧ s.ports.reqValid = false ∧ t = s.tick) := by
  unfold step nextMove at h
  cases hr : s.ports.rst with
  | true => simp only [hr, if_true] at h; cases h; exact .inl ⟨rfl, rfl⟩
  | false =>
    cases hb : s.busy with
    | true =>
      refine .inr (.inl ⟨rfl, rfl, ?_⟩)
      cases ho : s.op with
      | none => simp [hr, hb, ho] at h
      | some o =>
        cases hl : lookup o s.upc with
        | none => simp [hr, hb, ho, hl] at h
        | some i => exact ⟨o, i, rfl, hl, by simpa [hr, hb, ho, hl] using h⟩
    | false =>
      refine .inr (.inr ?_)
      cases hv : s.ports.reqValid with
      | true =>
        refine .inl ⟨rfl, rfl, rfl, ?_⟩
        simpa [hr, hb, hv, decodeReq_packReq] using h
      | false =>
        refine .inr ⟨rfl, rfl, rfl, ?_⟩
        simp only [hr, hb, hv] at h
        cases h
        rfl

/-- A step that gives a next state, and the steps after it. -/
theorem steps_succ {s t : State} (k : Nat) (h : step s = .next t) : steps (k + 1) s = steps k t := by
  simp [steps, h]

/-- Runs can be put end to end. -/
theorem steps_add {s t : State} (j k : Nat) (h : steps j s = .next t) : steps (j + k) s = steps k t := by
  induction j generalizing s with
  | zero => cases h; simp
  | succ j ih =>
    cases hs : step s with
    | next u =>
      rw [steps_succ j hs] at h
      rw [show j + 1 + k = j + k + 1 by omega, steps_succ (j + k) hs]
      exact ih h
    | fault f => simp [steps, hs] at h
    | refused r => simp [steps, hs] at h

end Sys2Proof.Machine
end

