-- ==== Sys2Proof/Laws/PerInstr.lean ====
section
/-! SUPPORT. Laws/PerInstr.lean: the family `RoundTrip`, one lemma per constructor of `Instr`: the word of the instruction is
of its own format and reads back as the instruction. -/

namespace Sys2Proof.Laws.RoundTrip

/-- What is said of every instruction: its word decodes to it, and only a micro-operation has a 5-bit word. -/
def Statement (i : Instr) : Prop :=
  decode (encode i) = .ok i ∧ ((∃ c, encode i = .uop c) ↔ Machine.isMicroOp i = true)

/-- The four commands, at once. -/
theorem ofCommand (o : Op) (x y : Wide) (fin : Bool) :
    decode (.req (packReq o.bits fin y x)) = .ok (o.instr x y fin) := by
  simp [decode, Machine.decodeReq_packReq]

theorem subct (x y : Wide) (fin : Bool) : Statement (.subct x y fin) :=
  ⟨ofCommand .subct x y fin, by simp [encode, Machine.isMicroOp]⟩

theorem bchain (x y : Wide) (fin : Bool) : Statement (.bchain x y fin) :=
  ⟨ofCommand .bchain x y fin, by simp [encode, Machine.isMicroOp]⟩

theorem cmadd (x y : Wide) (fin : Bool) : Statement (.cmadd x y fin) :=
  ⟨ofCommand .cmadd x y fin, by simp [encode, Machine.isMicroOp]⟩

theorem subbr (x y : Wide) (fin : Bool) : Statement (.subbr x y fin) :=
  ⟨ofCommand .subbr x y fin, by simp [encode, Machine.isMicroOp]⟩

theorem sbb (i : LimbIx) : Statement (.sbb i) :=
  ⟨by revert i; decide, by simp [encode, Machine.isMicroOp]⟩

theorem b2m : Statement .b2m := ⟨by decide, by simp [encode, Machine.isMicroOp]⟩

theorem and (i : LimbIx) : Statement (.and i) :=
  ⟨by revert i; decide, by simp [encode, Machine.isMicroOp]⟩

theorem adc (i : LimbIx) : Statement (.adc i) :=
  ⟨by revert i; decide, by simp [encode, Machine.isMicroOp]⟩

theorem adcp (i : LimbIx) : Statement (.adcp i) :=
  ⟨by revert i; decide, by simp [encode, Machine.isMicroOp]⟩

theorem br : Statement .br := ⟨by decide, by simp [encode, Machine.isMicroOp]⟩

theorem endOp : Statement .endOp := ⟨by decide, by simp [encode, Machine.isMicroOp]⟩

end Sys2Proof.Laws.RoundTrip
end

