-- ==== Sys2Proof/Laws/Program.lean ====
section
/-! SUPPORT. Laws/Program.lean: what a program's command asks for, everything one move of a run can do, and how moves follow
one another. -/

namespace Sys2Proof.Machine

@[simp] theorem Run.start_block (prog : Program) (v : Vars) (s : State) : (Run.start prog v s).block = s := rfl
@[simp] theorem Run.start_vars (prog : Program) (v : Vars) (s : State) : (Run.start prog v s).vars = v := rfl
@[simp] theorem Run.start_todo (prog : Program) (v : Vars) (s : State) : (Run.start prog v s).todo = prog := rfl
@[simp] theorem Run.start_pending (prog : Program) (v : Vars) (s : State) : (Run.start prog v s).pending = none := rfl
@[simp] theorem Run.start_reads (prog : Program) (v : Vars) (s : State) : (Run.start prog v s).reads = [] := rfl
@[simp] theorem Run.start_traces (prog : Program) (v : Vars) (s : State) : (Run.start prog v s).traces = [] := rfl

theorem Run.over_iff (r : Run) : r.over = true ↔ r.todo = [] ∧ r.pending = none := by
  simp [Run.over]

/-- A request of a program's command carries its code, both operands and the flag, and drives the inputs the command ignores
to 0. -/
theorem Command.request_eq_some {c : Command} {v : Vars} {p : PortsIn} (h : c.request v = some p) :
    ∃ x y fin, p = PortsIn.request c.op x y fin ∧ (c.op.instr x y fin).inHostSyntax = true := by
  have two {o : Op} {x y : Option (Quad Limb)} (h : requestOfTwo o x y = some p) :
      ∃ x y, p = PortsIn.request o x y false := by
    cases x <;> cases y <;> simp [requestOfTwo] at h
    exact ⟨_, _, h.symm⟩
  cases c with
  | subct z x y => obtain ⟨x, y, rfl⟩ := two h; exact ⟨x, y, false, rfl, rfl⟩
  | bchain z f x y => obtain ⟨x, y, rfl⟩ := two h; exact ⟨x, y, false, rfl, rfl⟩
  | subbr z x y => obtain ⟨x, y, rfl⟩ := two h; exact ⟨x, y, false, rfl, rfl⟩
  | cmadd z x f =>
    simp only [Command.request] at h
    split at h
    · cases h; exact ⟨_, _, _, rfl, rfl⟩
    · cases h

/-- The block gives a next state under `p` exactly where its step does. -/
theorem State.under_eq_some {s t : State} {p : PortsIn} :
    s.under p = some t ↔ step { s with inputs := [p] } = .next t := by
  unfold State.under
  split <;> simp_all

/-- Everything one move of a run can do. -/
theorem Run.move_cases {r r' : Run} {m : RunMove} (h : r.move m = some r') :
    (∃ c rest p t, m = .issue ∧ r.pending = none ∧ r.todo = c :: rest ∧ r.block.busy = false ∧
      c.request r.vars = some p ∧ r.block.under p = some t ∧
      r' = { r with block := t, todo := rest, pending := some c }) ∨
    (∃ p t, m = .step p ∧ r.block.busy = true ∧ p.rst = false ∧ r.block.under p = some t ∧ r' = { r with block := t }) ∨
    (∃ c v, m = .read ∧ r.pending = some c ∧ r.block.hostRead = some v ∧
      r' = { r with
        vars := c.receive r.vars v, pending := none, reads := r.reads ++ [v], traces := r.traces ++ [r.block.trace] }) := by
  cases m with
  | issue =>
    simp only [Run.move, Run.issueNext] at h
    split at h
    · next c rest hp ht =>
      split at h
      · cases h
      · next hb =>
        obtain ⟨p, hq, h⟩ := Option.bind_eq_some_iff.mp h
        obtain ⟨t, hu, rfl⟩ := Option.map_eq_some_iff.mp h
        exact .inl ⟨c, rest, p, t, rfl, hp, ht, by simpa using hb, hq, hu, rfl⟩
    · cases h
  | step p =>
    simp only [Run.move, Run.blockStep] at h
    split at h
    · next hc =>
      simp only [Bool.and_eq_true, Bool.not_eq_true'] at hc
      obtain ⟨t, hu, rfl⟩ := Option.map_eq_some_iff.mp h
      exact .inr (.inl ⟨p, t, rfl, hc.1, hc.2, hu, rfl⟩)
    · cases h
  | read =>
    simp only [Run.move, Run.readResult] at h
    split at h
    · next c v hp hv =>
      cases h
      exact .inr (.inr ⟨c, v, rfl, hp, hv, rfl⟩)
    · cases h

@[simp] theorem Run.moves_nil (r : Run) : Run.moves [] r = some r := rfl

@[simp] theorem Run.moves_cons (m : RunMove) (ms : List RunMove) (r : Run) :
    Run.moves (m :: ms) r = (r.move m).bind (Run.moves ms) := rfl

/-- Moves can be put end to end. -/
theorem Run.moves_append (ms ms' : List RunMove) (r : Run) :
    Run.moves (ms ++ ms') r = (Run.moves ms r).bind (Run.moves ms') := by
  induction ms generalizing r with
  | nil => rfl
  | cons m ms ih => cases h : r.move m <;> simp [h, ih]

/-- What holds at the start of a run and what every move keeps holds after any moves. -/
theorem Run.moves_induction {P : Run → Prop} {r r' : Run} {ms : List RunMove} (h : Run.moves ms r = some r') (h0 : P r)
    (hm : ∀ a m b, P a → a.move m = some b → P b) : P r' := by
  induction ms generalizing r with
  | nil => cases h; exact h0
  | cons m ms ih =>
    obtain ⟨u, hu, h⟩ := Option.bind_eq_some_iff.mp h
    exact ih h (hm r m u h0 hu)

@[simp] theorem isMicroOp_instr (o : Op) (x y : Wide) (fin : Bool) : isMicroOp (o.instr x y fin) = false := by
  cases o <;> rfl

/-- An idle block has no step of a command to take. -/
theorem noStepEnabled_of_idle {s : State} (h : s.busy = false) : NoStepEnabled s := by
  intro inputs i hi
  simp only [nextMove, h, decodeReq_packReq]
  split
  · simp
  · simp only [Bool.false_eq_true, if_false]
    split
    · rintro ⟨⟩
      simp at hi
    · simp

end Sys2Proof.Machine
end

