-- ==== Sys2Proof/Laws/Units.lean ====
section
/-! SUPPORT. Laws/Units.lean: the two chains lose nothing, and the mask chooses between a 4-limb value and zero. -/

namespace Sys2Proof.Machine

/-- The borrow chain loses nothing: what the 256 bits cannot hold is in the final borrow. -/
theorem bchain_loses_nothing (x y : Quad Limb) :
    val x + (bchain x y).2.toNat * 2 ^ 256 = val (bchain x y).1 + val y := by
  have h0 := sbb_loses_nothing x.l0 y.l0 false
  have h1 := sbb_loses_nothing x.l1 y.l1 (sbb x.l0 y.l0 false).2
  have h2 := sbb_loses_nothing x.l2 y.l2 (sbb x.l1 y.l1 (sbb x.l0 y.l0 false).2).2
  have h3 := sbb_loses_nothing x.l3 y.l3 (sbb x.l2 y.l2 (sbb x.l1 y.l1 (sbb x.l0 y.l0 false).2).2).2
  simp only [Bool.toNat_false] at h0
  simp only [bchain, val]
  omega

/-- The carry chain loses nothing: what the 256 bits cannot hold is in the final carry. -/
theorem addChain_loses_nothing (d m : Quad Limb) :
    val d + val m = val (addChain d m).1 + (addChain d m).2.toNat * 2 ^ 256 := by
  have h0 := adc_loses_nothing d.l0 m.l0 false
  have h1 := adc_loses_nothing d.l1 m.l1 (adc d.l0 m.l0 false).2
  have h2 := adc_loses_nothing d.l2 m.l2 (adc d.l1 m.l1 (adc d.l0 m.l0 false).2).2
  have h3 := adc_loses_nothing d.l3 m.l3 (adc d.l2 m.l2 (adc d.l1 m.l1 (adc d.l0 m.l0 false).2).2).2
  simp only [Bool.toNat_false] at h0
  simp only [addChain, val]
  omega

/-- A 4-limb value stands for a number of 256 bits. -/
theorem val_lt (q : Quad Limb) : val q < 2 ^ 256 := by
  have := q.l0.isLt; have := q.l1.isLt; have := q.l2.isLt; have := q.l3.isLt
  simp only [val]
  omega

@[simp] theorem maskedBy_true (q : Quad Limb) : maskedBy q true = q := by
  simp only [maskedBy, Quad.map, b2m_true, BitVec.and_allOnes]

@[simp] theorem maskedBy_false (q : Quad Limb) : maskedBy q false = Quad.fill 0#64 := by
  simp [maskedBy, Quad.map, Quad.fill]

end Sys2Proof.Machine
end

