-- ==== Sys2Proof/Tests/Slice0.lean ====
section
/-! SUPPORT. Tests/Slice0.lean: the model's own tests, each expected value being the spec's (spec/95_test_vectors.md, or the
table or rule named beside it), and a witness for the hypotheses of every statement that has some. -/

namespace Sys2Proof.Tests

open Sys2Proof.Machine

/-- The next state, if there is one. -/
def nextOf (r : Host.Outcome State Fault Refusal) : Option State :=
  match r with
  | .next t => some t
  | .fault _ => none
  | .refused _ => none

/-- The fault, if there is one. -/
def faultOf (r : Host.Outcome State Fault Refusal) : Option Fault :=
  match r with
  | .next _ => none
  | .fault f => some f
  | .refused _ => none

/-- What a word decodes to, if anything. -/
def decoded (c : Code) : Option Instr := (decode c).toOption

/-- The modulus limbs as vector values: the names `P` and `P-1` of spec/95_test_vectors.md. -/
def pLimbs : Quad Limb :=
  ⟨0x43e1f593f0000001#64, 0x2833e84879b97091#64, 0xb85045b68181585d#64, 0x30644e72e131a029#64⟩
def pMinus1 : Quad Limb :=
  ⟨0x43e1f593f0000000#64, 0x2833e84879b97091#64, 0xb85045b68181585d#64, 0x30644e72e131a029#64⟩
def zero : Quad Limb := Quad.fill 0#64
def one : Quad Limb := ⟨1#64, 0#64, 0#64, 0#64⟩
def maxQ : Quad Limb := Quad.fill 0xFFFFFFFFFFFFFFFF#64

/-- A command in flight at `UPC = k`, with operands 0 and 1 and a borrow of `b`. -/
def inFlight (o : Op) (k : BitVec 4) (b : Bool) : State :=
  { State.reset with
    op := some o, fin := some true, x := zero.map some, y := one.map some
    bw := some b, cy := some false, upc := k, busy := true }

/-- Vector T1 after its step 9: the borrow chain done, the mask made, the four limbs masked. -/
def t1AfterAnds : State :=
  { inFlight .subct 9#4 true with
    z := maxQ.map some, mask := some 0xFFFFFFFFFFFFFFFF#64, m := pLimbs.map some
    trace := [.sbb 0, .sbb 1, .sbb 2, .sbb 3, .b2m, .and 0, .and 1, .and 2, .and 3] }

/-- An idle block whose host asks for command `o`. -/
def asked (o : Op) (x y : Wide) (fin : Bool) : State :=
  { State.reset with inputs := [PortsIn.request o x y fin] }

/-! ## Well-formedness: each check refuses an ill-formed term -/

theorem test_unused_code_05_refused : uopCodeUsed 0x05#5 = false := by decide
theorem test_unused_code_15_refused : uopCodeUsed 0x15#5 = false := by decide
theorem test_unused_code_1f_refused : uopCodeUsed 0x1F#5 = false := by decide
theorem test_used_code_18_kept : uopCodeUsed 0x18#5 = true := by decide
theorem test_used_codes_are_those_that_decode :
    ∀ c : BitVec 5, uopCodeUsed c = (decoded (.uop c)).isSome := by decide
theorem test_subct_with_flag_not_host_written : (Instr.subct 0#256 0#256 true).inHostSyntax = false := by decide
theorem test_bchain_with_flag_not_host_written : (Instr.bchain 0#256 0#256 true).inHostSyntax = false := by decide
theorem test_cmadd_with_y_not_host_written : (Instr.cmadd 0#256 1#256 true).inHostSyntax = false := by decide
theorem test_subbr_with_flag_not_host_written : (Instr.subbr 0#256 0#256 true).inHostSyntax = false := by decide

/-! ## Decoding, word by word from R43, R44 and R48 -/

/-- The `REQ` word of vector T1. -/
theorem test_decode_subct : decoded (.req
    0x000000000000000000000000000000000000000000000000000000000000000010000000000000000000000000000000000000000000000000000000000000000#515)
    = some (.subct 0#256 1#256 false) := by decide +kernel

/-- The first `REQ` word of program P5. -/
theorem test_decode_bchain : decoded (.req
    0x2ffffffffffffffffffffffffffffffffffffffffffffffffffffffffffffffff0000000000000000000000000000000000000000000000000000000000000000#515)
    = some (.bchain 0#256 (BitVec.allOnes 256) false) := by decide +kernel

/-- The second `REQ` word of program P5. -/
theorem test_decode_cmadd : decoded (.req
    0x500000000000000000000000000000000000000000000000000000000000000000000000000000000000000000000000000000000000000000000000000000001#515)
    = some (.cmadd 1#256 0#256 true) := by decide +kernel

/-- The second `REQ` word of program P3. -/
theorem test_decode_subbr : decoded (.req
    0x600000000000000000000000000000000000000000000000000000000000000030000000000000000000000000000000000000000000000000000000000000005#515)
    = some (.subbr 5#256 3#256 false) := by decide +kernel

theorem test_decode_sbb : decoded (.uop 0b00010#5) = some (.sbb 2) := by decide
theorem test_decode_b2m : decoded (.uop 0b00100#5) = some .b2m := by decide
theorem test_decode_and : decoded (.uop 0b01001#5) = some (.and 1) := by decide
theorem test_decode_adc : decoded (.uop 0b01111#5) = some (.adc 3) := by decide
theorem test_decode_adcp : decoded (.uop 0b10010#5) = some (.adcp 2) := by decide
theorem test_decode_br : decoded (.uop 0b10100#5) = some .br := by decide
theorem test_decode_end : decoded (.uop 0b11000#5) = some .endOp := by decide
theorem test_decode_refuses_by_name : decodeUop 0x07#5 = .error (.unusedUop 0x07#5) := rfl

/-- The `REQ` word of vector T1 written by the encoder. -/
theorem test_encode_subct : encode (.subct 0#256 1#256 false) = .req
    0x000000000000000000000000000000000000000000000000000000000000000010000000000000000000000000000000000000000000000000000000000000000#515 := by
  decide +kernel

/-! ## Table words and the next instruction -/

theorem test_table_word_cmadd : decodeTableWord 2 0x2 = some (.cmadd 0#256 0#256 false) := by decide
theorem test_table_word_cmadd_in_a_byte : decodeTableWord 8 0x2 = some (.cmadd 0#256 0#256 false) := by decide
theorem test_table_word_sbb : decodeTableWord 5 0x00 = some (.sbb 0) := by decide
theorem test_table_word_end_in_a_byte : decodeTableWord 8 0x18 = some .endOp := by decide
theorem test_table_word_unused : decodeTableWord 8 0x05 = none := by decide

/-- Every row of the opcode table is run by the first step after reset. -/
theorem test_every_row_runs_first :
    ∀ r ∈ [(2, 0x0), (2, 0x1), (2, 0x2), (2, 0x3), (5, 0x00), (5, 0x04), (5, 0x08), (5, 0x0C), (5, 0x10), (5, 0x14), (5, 0x18)],
      ((nextOf (step (State.reset.withFetchWord r.1 r.2))).isSome &&
        decide ((decodeTableWord r.1 r.2).map Move.run = some (nextMove (State.reset.withFetchWord r.1 r.2)))) = true := by
  decide

/-! ## One step of each instruction -/

/-- P6, `issue SUBCT [0,0,0,0],[1,0,0,0]`. -/
theorem test_step_issues_subct :
    (nextOf (step (asked .subct 0#256 1#256 false))).map (fun t => (t.busy, t.rvalid, t.op, t.bw, t.cy)) =
    some (true, false, some .subct, some false, some false) := by decide

/-- The same move: the result registers lose their values and the second operand is latched. -/
theorem test_step_issue_of_subct_clears_result :
    (nextOf (step { asked .subct 0#256 1#256 false with fout := some true, z := maxQ.map some })).map
      (fun t => (t.fout, t.z, t.y)) = some (none, Quad.fill none, one.map some) := by decide

/-- R43: limb 3 of the operand is the top 64 bits of the port. -/
theorem test_bchain_latches_top_limb :
    (nextOf (exec (.bchain (7#256 <<< 192) 0#256 true) State.reset)).map (fun t => (t.x.l3, t.x.l0, t.op, t.fin)) =
    some (some 7#64, some 0#64, some .bchain, some true) := by decide

/-- R46: `CMADD` latches the operand it ignores. -/
theorem test_cmadd_latches_ignored_operand :
    (nextOf (exec (.cmadd 0#256 9#256 true) State.reset)).map (fun t => (t.y.l0, t.fin)) = some (some 9#64, some true) := by
  decide

/-- P6, `issue (anything)` while `BUSY = 1`. -/
theorem test_subbr_waits_while_busy :
    nextOf (exec (.subbr 5#256 3#256 false) (inFlight .subct 2#4 true)) = some (inFlight .subct 2#4 true) := by decide

/-- T1, step 1. -/
theorem test_sbb_underflow :
    (nextOf (exec (.sbb 0) (inFlight .subct 0#4 false))).map (fun t => (t.z, t.bw, t.upc, t.trace)) =
    some (⟨some 0xFFFFFFFFFFFFFFFF#64, none, none, none⟩, some true, 1#4, [.sbb 0]) := by decide

/-- V-SBB-7, the most negative difference. -/
theorem test_sbb_most_negative : sbb 0#64 0xFFFFFFFFFFFFFFFF#64 true = (0#64, true) := by decide

/-- V-B2M-2: under `SUBCT` the flag is `BW`. -/
theorem test_b2m_reads_borrow :
    (nextOf (exec .b2m (inFlight .subct 4#4 false))).map (fun t => t.mask) = some (some 0#64) := by decide

/-- V-B2M-3: under `CMADD` the flag is `FIN`, not `BW`. -/
theorem test_b2m_reads_fin_under_cmadd :
    (nextOf (exec .b2m (inFlight .cmadd 0#4 false))).map (fun t => t.mask) = some (some 0xFFFFFFFFFFFFFFFF#64) := by decide

/-- V-AND-3. -/
theorem test_and_reads_rom :
    (nextOf (exec (.and 2) { inFlight .subct 7#4 true with mask := some 0xFFFFFFFFFFFFFFFF#64 })).map
      (fun t => (t.m, t.trace)) = some (⟨none, none, some 0xb85045b68181585d#64, none⟩, [.and 2]) := by decide

/-- V-AND-5. -/
theorem test_and_masks_out :
    (nextOf (exec (.and 0) { inFlight .subct 5#4 false with mask := some 0#64 })).map (fun t => t.m.l0) =
    some (some 0#64) := by decide

/-- T1, step 10. -/
theorem test_adc_carries :
    (nextOf (step t1AfterAnds)).map (fun t => (t.z.l0, t.cy, t.upc)) =
    some (some 0x43e1f593f0000000#64, some true, 10#4) := by decide

/-- R61: under `CMADD` the first operand is `X[i]`; here `0 + P[0]` (V-ADC-17). -/
theorem test_adc_reads_x_under_cmadd :
    (nextOf (exec (.adc 0) { inFlight .cmadd 5#4 false with m := pLimbs.map some })).map (fun t => (t.z.l0, t.cy)) =
    some (some 0x43e1f593f0000001#64, some false) := by decide

/-- V-ADC-11, as the `ADCP 1` of vector V-SBR-2. -/
theorem test_adcp_adds_rom_word :
    (nextOf (exec (.adcp 1) { inFlight .subbr 6#4 true with z := maxQ.map some, cy := some true })).map
      (fun t => (t.z.l1, t.cy, t.upc)) = some (some 0x2833e84879b97091#64, some true, 7#4) := by decide

/-- V-BR-1. -/
theorem test_br_not_taken :
    (nextOf (exec .br (inFlight .subbr 4#4 false))).map (fun t => (t.upc, t.trace)) = some (9#4, [.br false]) := by decide

/-- V-BR-2. -/
theorem test_br_taken :
    (nextOf (exec .br (inFlight .subbr 4#4 true))).map (fun t => (t.upc, t.trace)) = some (5#4, [.br true]) := by decide

/-- V-END-3. -/
theorem test_end_shows_borrow_under_bchain :
    (nextOf (exec .endOp (inFlight .bchain 4#4 true))).map
      (fun t => ((t.fout, t.busy, t.rvalid), (t.upc, t.bw, t.cy))) = some ((some true, false, true), (0#4, none, none)) := by decide

/-- V-END-6. -/
theorem test_end_hides_borrow_under_subbr :
    (nextOf (exec .endOp (inFlight .subbr 9#4 true))).map (fun t => t.fout) = some (some false) := by decide

/-- R20: a read of a register that holds no value is a fault. -/
theorem test_adcp_without_value_faults :
    faultOf (exec (.adcp 1) (inFlight .subbr 6#4 true)) = some (.noValue (.z 1)) := by decide

/-- P6, `reset (command in flight)`. -/
theorem test_reset_aborts :
    nextOf (step { inFlight .subct 3#4 true with inputs := [{ PortsIn.quiet with rst := true }] }) = some State.reset := by
  decide

/-- P6, `step not enabled (BUSY = 0)`: the registers hold. -/
theorem test_idle_holds : nextOf (step State.reset) = some State.reset := by decide

/-- The response word of vector T1. -/
theorem test_rsp_of_t1 :
    State.rsp { State.reset with rvalid := true, fout := some false, z := pMinus1.map some } =
    some 0x030644e72e131a029b85045b68181585d2833e84879b9709143e1f593f0000000#257 := by decide +kernel

/-- R32: byte 0 is the least significant. -/
theorem test_byte_image : (toBytes 0x0102#256).take 3 = [0x02#8, 0x01#8, 0x00#8] := by decide

/-- V-SCT-28: one add-back is not enough. -/
theorem test_sub_ct_non_canonical : subCt pMinus1 maxQ =
    ⟨0x87c3eb27e0000002#64, 0x5067d090f372e122#64, 0x70a08b6d0302b0ba#64, 0x60c89ce5c2634053#64⟩ := by decide

/-- V-SBR-11: borrow and carry cancel. -/
theorem test_sub_br_borrow_of_p : subBr zero pLimbs = zero := by decide

/-! ## Witnesses: a concrete case that meets each statement's hypotheses -/

theorem witness_DecodeOfEncode : (Instr.adcp 3).wellFormed = true := by decide
theorem witness_EncodeOfDecode_command : 
    decode (.req (packReq 3#2 true 5#256 3#256)) = .ok (.subbr 3#256 5#256 true) :=
  congrArg Except.ok (decodeReq_packReq 3#2 true 5#256 3#256)
theorem witness_EncodeOfDecode_microOp : decode (.uop 0x13#5) = .ok (.adcp 3) := by rfl
theorem witness_PortLimbs_bit : (63 : Nat) < 64 := by decide
theorem witness_LimbsAndVal : 2 ^ 256 - 1 < 2 ^ 256 := by decide
theorem witness_ByteImage : (31 : Nat) < 32 ∧ (7 : Nat) < 8 := by decide
theorem witness_BorrowChain_noBorrow : (bchain one zero).2 = false := by decide
theorem witness_BorrowChain_borrow : (bchain zero one).2 = true := by decide
theorem witness_MaskedAddBack_fits : val zero + Config.p < 2 ^ 256 := by decide
theorem witness_MaskedAddBack_wraps : 2 ^ 256 ≤ val maxQ + Config.p := by decide
/-- `y - x` at `p` exactly, just above it, and the largest for a canonical `y`. -/
theorem witness_FinalCarry_atP : val zero < val pLimbs ∧ val pLimbs - val zero ≤ Config.p := by decide
theorem witness_FinalCarry_aboveP : val zero < val maxQ ∧ Config.p < val maxQ - val zero := by decide
theorem witness_FinalCarry_canonical : val zero < val pMinus1 ∧ val pMinus1 < Config.p := by decide
theorem witness_ConstantTimeSubtract_noBorrow : val zero ≤ val zero := by decide
theorem witness_ConstantTimeSubtract_atP : val zero < val pLimbs ∧ val pLimbs - val zero ≤ Config.p := by decide
theorem witness_ConstantTimeSubtract_aboveP :
    val zero < val (limbs (Config.p + 1)) ∧ Config.p < val (limbs (Config.p + 1)) - val zero := by decide
theorem witness_CanonicalOperands : val zero < Config.p ∧ val pMinus1 < Config.p := by decide
theorem witness_NoBorrow : val zero ≤ val one := by decide
theorem witness_Underflow : val zero < val one := by decide
theorem witness_NonCanonical_above : (Config.p : Int) ≤ (val pLimbs : Int) - val zero := by decide
theorem witness_NonCanonical_below : (val zero : Int) - val maxQ < -(Config.p : Int) := by decide
theorem witness_AnyModulus : val zero ≤ val one := by decide
theorem witness_Issue_idle : State.reset.busy = false := by decide
theorem witness_RequestWaits_busy : (inFlight .subct 2#4 true).busy = true ∧ PortsIn.quiet.rst = (PortsIn.request .subbr 1#256 2#256 true).rst := by
  decide
theorem witness_SubtractLimbStep :
    (inFlight .subct 0#4 false).x.get 0 = some 0#64 ∧ (inFlight .subct 0#4 false).y.get 0 = some 1#64 ∧
    (inFlight .subct 0#4 false).bw = some false := by decide
theorem witness_MaskStep_cmadd :
    (fun (s : State) (o : Op) (f : Bool) => s.op = some o ∧ (o = .cmadd → s.fin = some f) ∧ (o ≠ .cmadd → s.bw = some f))
      (inFlight .cmadd 0#4 false) .cmadd true := by decide
theorem witness_MaskStep_subct :
    (fun (s : State) (o : Op) (f : Bool) => s.op = some o ∧ (o = .cmadd → s.fin = some f) ∧ (o ≠ .cmadd → s.bw = some f))
      (inFlight .subct 4#4 false) .subct false := by decide
theorem witness_MaskLimbStep : t1AfterAnds.mask = some 0xFFFFFFFFFFFFFFFF#64 := by decide
theorem witness_AddMaskedLimbStep_subct :
    (fun (s : State) (o : Op) (a b : Limb) => s.op = some o ∧ (o = .cmadd → s.x.get 0 = some a) ∧
      (o ≠ .cmadd → s.z.get 0 = some a) ∧ s.m.get 0 = some b ∧ s.cy = some false)
      t1AfterAnds .subct 0xFFFFFFFFFFFFFFFF#64 0x43e1f593f0000001#64 := by decide
theorem witness_AddMaskedLimbStep_cmadd :
    (fun (s : State) (o : Op) (a b : Limb) => s.op = some o ∧ (o = .cmadd → s.x.get 3 = some a) ∧
      (o ≠ .cmadd → s.z.get 3 = some a) ∧ s.m.get 3 = some b ∧ s.cy = some false)
      { inFlight .cmadd 8#4 false with m := pLimbs.map some } .cmadd 0#64 0x30644e72e131a029#64 := by decide
theorem witness_AddModulusLimbStep :
    (fun s : State => s.z.get 1 = some 0xFFFFFFFFFFFFFFFF#64 ∧ s.cy = some false)
      { inFlight .subbr 6#4 true with z := maxQ.map some } := by decide
theorem witness_BranchStep_taken : (inFlight .subbr 4#4 true).bw = some true := by decide
theorem witness_BranchStep_notTaken : (inFlight .subbr 4#4 false).bw = some false := by decide
theorem witness_BranchStep_others :
    isMicroOp .endOp = true ∧ Instr.endOp ≠ .br ∧ (nextOf (exec .endOp t1AfterAnds)).isSome = true := by decide
theorem witness_EndStep_bchain :
    (fun (s : State) (o : Op) (f : Bool) => s.op = some o ∧ (o = .bchain → s.bw = some f) ∧ (o ≠ .bchain → f = false))
      (inFlight .bchain 4#4 true) .bchain true := by decide
theorem witness_EndStep_subbr :
    (fun (s : State) (o : Op) (f : Bool) => s.op = some o ∧ (o = .bchain → s.bw = some f) ∧ (o ≠ .bchain → f = false))
      (inFlight .subbr 9#4 true) .subbr false := by decide
theorem witness_MicroOpRuns_held :
    isMicroOp (.adc 2) = true ∧ ∀ r ∈ operandRegs (.adc 2) t1AfterAnds, t1AfterAnds.holds r = true := by decide
theorem witness_MicroOpRuns_missing :
    isMicroOp (.adcp 1) = true ∧ ∃ r ∈ operandRegs (.adcp 1) (inFlight .subbr 6#4 true), (inFlight .subbr 6#4 true).holds r = false :=
  ⟨rfl, .z 1, by decide, by decide⟩
theorem witness_MicroOpsKeepOperands :
    isMicroOp .endOp = true ∧ (nextOf (exec .endOp t1AfterAnds)).isSome = true := by decide
theorem witness_LimbStepsIgnoreData :
    isMicroOp (.sbb 1) = true ∧ Instr.sbb 1 ≠ .br ∧
    (inFlight .subct 0#4 true).op = (inFlight .subct 0#4 false).op ∧
    (inFlight .subct 0#4 true).upc = (inFlight .subct 0#4 false).upc ∧
    (inFlight .subct 0#4 true).trace = (inFlight .subct 0#4 false).trace ∧
    (∀ r, (inFlight .subct 0#4 true).holds r = (inFlight .subct 0#4 false).holds r) ∧
    (nextOf (exec (.sbb 1) (inFlight .subct 0#4 true))).isSome = true :=
  ⟨rfl, by decide, rfl, rfl, rfl, fun r => by cases r <;> rfl, by decide⟩
theorem witness_StepRunsTheMicroOperation :
    t1AfterAnds.ports.rst = false ∧ t1AfterAnds.busy = true ∧ t1AfterAnds.op = some .subct ∧
    (microprogram .subct)[t1AfterAnds.upc.toNat]? = some 0x0C#5 ∧ decoded (.uop 0x0C#5) = some (.adc 0) := by decide
theorem witness_StepRunsTheRequest :
    (asked .subbr 5#256 3#256 false).ports.rst = false ∧ (asked .subbr 5#256 3#256 false).busy = false ∧
    (asked .subbr 5#256 3#256 false).ports.reqValid = true ∧
    decode (.req (packReq (asked .subbr 5#256 3#256 false).ports.reqOp (asked .subbr 5#256 3#256 false).ports.reqFin
      (asked .subbr 5#256 3#256 false).ports.reqY (asked .subbr 5#256 3#256 false).ports.reqX)) = .ok (.subbr 5#256 3#256 false) :=
  ⟨rfl, rfl, rfl, congrArg Except.ok (decodeReq_packReq 3#2 false 3#256 5#256)⟩
theorem witness_ResetOverrides :
    (fun s : State => s.ports.rst = true ∧ s.busy = true) { t1AfterAnds with inputs := [{ PortsIn.quiet with rst := true }] } := by
  decide
theorem witness_IdleBlockHolds :
    (fun s : State => s.busy = false ∧ ∀ p ∈ s.inputs.take 2, p.rst = false ∧ p.reqValid = false)
      { State.reset with inputs := [PortsIn.quiet, PortsIn.quiet] } := by decide
theorem witness_ResetAborts :
    (fun s : State => s.ports.rst = true ∧ ∀ p ∈ s.inputs.tail.take 1, p.reqValid = false)
      { t1AfterAnds with inputs := [{ PortsIn.quiet with rst := true }, PortsIn.quiet] } := by decide

/-- The state of vector T1 after its step 9 meets the invariant, with a command in flight. -/
theorem witness_Inv_inFlight : t1AfterAnds.Inv :=
  ⟨.subct, by decide⟩

/-- A state in which a result stands meets the invariant. -/
def t1Done : State :=
  { State.reset with
    op := some .subct, fin := some false, x := zero.map some, y := one.map some, z := pMinus1.map some
    fout := some false, rvalid := true, trace := commandTrace .subct true }

theorem witness_Inv_resultStands : t1Done.Inv := by
  refine ⟨rfl, rfl, rfl, rfl, rfl, ?_⟩
  exact ⟨rfl, rfl, rfl, rfl, .subct, false, true, rfl, rfl, fun _ => rfl, rfl⟩

theorem witness_InvariantKept : ∃ t, t1AfterAnds.Inv ∧ step t1AfterAnds = .next t := ⟨_, witness_Inv_inFlight, rfl⟩
theorem witness_ReadEnabled :
    t1Done.Inv ∧ t1Done.hostRead = some (pMinus1, false) ∧ t1Done.rsp = some (BitVec.ofBool false ++ toPort pMinus1) :=
  ⟨witness_Inv_resultStands, rfl, rfl⟩
theorem witness_Counter_busy : t1AfterAnds.Inv ∧ t1AfterAnds.busy = true := ⟨witness_Inv_inFlight, rfl⟩
theorem witness_Counter_idle : t1Done.Inv ∧ t1Done.busy = false := ⟨witness_Inv_resultStands, rfl⟩
theorem witness_RomAccess_subct : t1Done.Inv ∧ t1Done.rvalid = true ∧ t1Done.op = some .subct :=
  ⟨witness_Inv_resultStands, rfl, rfl⟩

/-- The same result left by another command with its trace. -/
def doneBy (o : Op) (borrow : Bool) : State := { t1Done with op := some o, trace := commandTrace o borrow }

theorem witness_RomAccess_others (o : Op) (borrow : Bool) :
    (doneBy o borrow).Inv ∧ (doneBy o borrow).rvalid = true ∧ (doneBy o borrow).op = some o := by
  refine ⟨⟨rfl, rfl, rfl, rfl, rfl, ?_⟩, rfl, rfl⟩
  exact ⟨rfl, rfl, rfl, rfl, o, false, borrow, rfl, rfl, fun _ => rfl, rfl⟩
theorem witness_EveryCommandEnds :
    t1AfterAnds.Inv ∧ t1AfterAnds.busy = true ∧ ∀ p ∈ t1AfterAnds.inputs.take 14, p.rst = false :=
  ⟨witness_Inv_inFlight, rfl, by decide⟩

/-- A host that asks for a command and keeps a second request up for one step more. -/
def askedTwice (o : Op) : State :=
  { State.reset with inputs := [PortsIn.request o 0#256 1#256 true, PortsIn.request .subct 5#256 3#256 false] }

theorem witness_RunsToResult (o : Op) (n : Nat) :
    (askedTwice o).busy = false ∧
    (askedTwice o).inputs = PortsIn.request o 0#256 1#256 true :: [PortsIn.request .subct 5#256 3#256 false] ∧
    ∀ p ∈ [PortsIn.request .subct 5#256 3#256 false].take n, p.rst = false :=
  ⟨rfl, rfl, fun p hp => by
    have : p = PortsIn.request .subct 5#256 3#256 false := List.mem_singleton.mp (List.mem_of_mem_take hp)
    rw [this]
    rfl⟩
theorem witness_TraceIndependent (o : Op) :
    (asked o 5#256 3#256 false).busy = false ∧ (asked o 3#256 5#256 true).busy = false ∧
    (asked o 5#256 3#256 false).inputs = [PortsIn.request o 5#256 3#256 false] ∧
    (asked o 3#256 5#256 true).inputs = [PortsIn.request o 3#256 5#256 true] := ⟨rfl, rfl, rfl, rfl⟩

/-- T1 after its step 9 beside a command without a borrow at the same place: an observer cannot tell them apart. -/
def noBorrowAfterAnds : State :=
  { t1AfterAnds with
    x := one.map some, y := zero.map some, z := one.map some, bw := some false, mask := some 0#64, m := zero.map some }

theorem witness_ConstantTimeStepByStep :
    t1AfterAnds.Inv ∧ noBorrowAfterAnds.Inv ∧ LowEq t1AfterAnds noBorrowAfterAnds ∧
    (t1AfterAnds.busy = true → t1AfterAnds.op ≠ some .subbr) :=
  ⟨witness_Inv_inFlight, ⟨.subct, by decide⟩, ⟨rfl, rfl, rfl, rfl, rfl, rfl⟩, fun _ => by decide⟩
theorem witness_BranchGivesAway :
    (fun s : State => s.ports.rst = false ∧ s.busy = true ∧ s.op = some .subbr ∧ s.upc = 4#4) (inFlight .subbr 4#4 true) := by
  decide
theorem witness_ChainThenAddBack :
    (asked .bchain 0#256 1#256 false).busy = false ∧ (asked .cmadd (toPort maxQ) 0#256 true).busy = false ∧
    (asked .subct 0#256 1#256 true).busy = false ∧
    (asked .bchain 0#256 1#256 false).inputs = [PortsIn.request .bchain 0#256 1#256 false] ∧
    (asked .subct 0#256 1#256 true).inputs = [PortsIn.request .subct 0#256 1#256 true] ∧
    (asked .cmadd (toPort maxQ) 0#256 true).inputs =
      [PortsIn.request .cmadd (toPort (bchain zero one).1) 0#256 (bchain zero one).2] := by
  decide

/-- Program P5 of spec/95_test_vectors.md: `BCHAIN d, f, [0,0,0,0], MAX` and `CMADD z, d, f`, its first command alone, and the
moves of a run of that. -/
def p5 : Program := [.bchain 0 0 (.lit zero) (.lit maxQ), .cmadd 1 (.var 0) (.var 0)]
def p5First : Program := p5.take 1
def noVars : Vars := ⟨[], []⟩
def p5FirstMoves : List RunMove := .issue :: List.replicate 5 (.step (PortsIn.request .subbr 7#256 9#256 true)) ++ [.read]

/-- What the two commands of P5 ask for, the operands of the second being the result of the first: the requests whose `REQ`
words `test_decode_bchain` and `test_decode_cmadd` decode. -/
theorem test_p5_first_request :
    (Command.bchain 0 0 (.lit zero) (.lit maxQ)).request noVars =
      some (PortsIn.request .bchain 0#256 (BitVec.allOnes 256) false) := by decide +kernel
theorem test_p5_second_request :
    (Command.cmadd 1 (.var 0) (.var 0)).request
        ((Command.bchain 0 0 (.lit zero) (.lit maxQ)).receive noVars (one, true)) =
      some (PortsIn.request .cmadd 1#256 0#256 true) := by decide +kernel

/-- A command whose variable has no value cannot be issued. -/
theorem test_unboundVariable : (Run.start (p5.drop 1) noVars State.reset).issueNext = none := rfl

/-- P5, first command: the outcome, with the trace `T_BCHAIN`, and the first run that is over. -/
theorem witness_RunOfAProgram_over :
    ∃ r, State.reset.busy = false ∧ Run.moves p5FirstMoves (Run.start p5First noVars State.reset) = some r ∧
      r.over = true ∧ p5First ≠ [] ∧ r.outcome = ([(one, true)], [commandTrace .bchain true]) :=
  ⟨_, rfl, rfl, rfl, by decide, by decide⟩
theorem witness_RunOfAProgram_busy :
    ∃ r, State.reset.busy = false ∧ Run.moves [.issue] (Run.start p5 noVars State.reset) = some r ∧ r.block.busy = true :=
  ⟨_, rfl, rfl, rfl⟩
theorem witness_RunOfAProgram_values : programOutcome p5 noVars ≠ none ∧ ∀ c ∈ p5, c.op ≠ .subbr :=
  ⟨by decide, by decide⟩

end Sys2Proof.Tests
end

section
/-! PROOFS. Values, ports and the modulus: a port value, its four limbs and the number they stand for (R7, R43, R45), the
words of the modulus ROM (R13, R31), and reading a limb after a write (R8). -/

namespace Sys2Proof

/-- Reading limb `j` after a write of limb `i`, the two cases in one. -/
theorem Quad.get_set {α : Type} (q : Quad α) (i j : LimbIx) (v : α) :
    (q.set i v).get j = if j = i then v else q.get j := by
  split
  case isTrue h => rw [h, Quad.get_set_self]
  case isFalse h => exact Quad.get_set_of_ne q v h

namespace Machine

/-- R43: limb `i` of a port is the 64 bits from bit `64 * i` on. -/
theorem get_ofPort (w : Wide) (i : LimbIx) : (ofPort w).get i = w.extractLsb' (64 * i.val) 64 := by
  fin_cases i <;> rfl

@[simp] theorem val_ofPort (w : Wide) : val (ofPort w) = w.toNat := by
  have hw := w.isLt
  simp only [val, ofPort, BitVec.extractLsb'_toNat, Nat.shiftRight_eq_div_pow]
  omega

theorem toNat_append_eq_add {m n : Nat} (a : BitVec m) (b : BitVec n) : (a ++ b).toNat = a.toNat * 2 ^ n + b.toNat := by
  rw [BitVec.toNat_append, ← Nat.shiftLeft_add_eq_or_of_lt b.isLt, Nat.shiftLeft_eq]

@[simp] theorem toNat_toPort (q : Quad Limb) : (toPort q).toNat = val q := by
  simp only [toPort, toNat_append_eq_add, val]
  omega

@[simp] theorem toPort_ofPort (w : Wide) : toPort (ofPort w) = w :=
  BitVec.eq_of_toNat_eq (by rw [toNat_toPort, val_ofPort])

@[simp] theorem ofPort_toPort (q : Quad Limb) : ofPort (toPort q) = q :=
  val_injective _ _ (by rw [val_ofPort, toNat_toPort])

theorem val_limbs {v : Nat} (h : v < 2 ^ 256) : val (limbs v) = v := by
  simp only [val, limbs, BitVec.toNat_ofNat]
  omega

@[simp] theorem limbs_val (q : Quad Limb) : limbs (val q) = q :=
  val_injective _ _ (val_limbs (val_lt q))

/-- R13: the words of the modulus ROM stand for `p`. -/
theorem val_modulus : val Config.modulus = Config.p := by
  decide

/-- Settles O5: the bits by `get_ofPort`, the two inverses by comparing the numbers they stand for. -/
theorem portLimbsLeastSignificantFirst : Obligations.PortLimbsLeastSignificantFirst := by
  intro w
  refine ⟨fun i k hk => ?_, val_ofPort w, toPort_ofPort w, ofPort_toPort⟩
  rw [get_ofPort, BitVec.getLsbD_extractLsb', decide_eq_true hk, Bool.true_and]

/-- Settles O6. -/
theorem limbsAndValInverse : Obligations.LimbsAndValInverse :=
  ⟨fun q => ⟨val_lt q, limbs_val q⟩, fun _ h => val_limbs h⟩

/-- Settles O8: the ROM's words are the constants of R5, and `val_modulus` counts them. -/
theorem romHoldsTheModulus : Obligations.RomHoldsTheModulus :=
  ⟨rfl, rfl, rfl, rfl, val_modulus, rfl⟩

/-- Settles O34: `Quad.get_set` at the limbs of a register. -/
theorem limbReadAfterWrite : Obligations.LimbReadAfterWrite :=
  Quad.get_set

end Machine

end Sys2Proof
end

section
/-! PROOFS. The invariant and the step (10_state.md sections 2 to 9): where each micro-operation stands in a microprogram,
how far a command has come, and that every move keeps the invariant. -/

namespace Sys2Proof

/-- Two registers with the same limbs are the same. -/
theorem Quad.ext_get {α : Type} {q r : Quad α} (h : ∀ i : LimbIx, q.get i = r.get i) : q = r := by
  obtain ⟨a, b, c, d⟩ := q
  exact congr (congr (congr (congrArg Quad.mk (h 0)) (h 1)) (h 2)) (h 3)

namespace Machine

variable {o : Op} {u : BitVec 4} {s t : State}

/-! ## Where the micro-operations stand (R48, R57) -/

/-- A microprogram holds micro-operations only. -/
theorem isMicroOp_of_lookup {i : Instr} (h : lookup o u = some i) : isMicroOp i = true := by
  rw [lookup_eq_microOps] at h
  have hall : ∀ j ∈ microOps o, isMicroOp j = true := by cases o <;> decide
  exact hall i (List.mem_of_getElem? h)

/-- The place of `END`, the largest value of `UPC` (R19). -/
def endPlace : Op → Nat
  | .subct => 13
  | .bchain => 4
  | .cmadd => 9
  | .subbr => 9

theorem microOps_length (o : Op) : (microOps o).length = endPlace o + 1 := by
  cases o <;> rfl

theorem endPlace_le (o : Op) : endPlace o ≤ 13 := by
  cases o <;> decide

theorem lookup_eq_endOp_iff : lookup o u = some .endOp ↔ u.toNat = endPlace o := by
  rw [lookup_eq_microOps]
  cases o <;> revert u <;> decide

/-- A command's entries stand at places up to that of `END`. -/
theorem le_endPlace_of_lookup {i : Instr} (h : lookup o u = some i) : u.toNat ≤ endPlace o := by
  rw [lookup_eq_microOps] at h
  obtain ⟨hlt, -⟩ := List.getElem?_eq_some_iff.mp h
  rw [microOps_length] at hlt
  omega

/-- Every micro-operation but `END` has a next place. -/
theorem lt_endPlace_of_lookup {i : Instr} (h : lookup o u = some i) (hi : i ≠ .endOp) : u.toNat < endPlace o := by
  refine lt_of_le_of_ne (le_endPlace_of_lookup h) fun hu => hi ?_
  exact Option.some.inj (h.symm.trans (lookup_eq_endOp_iff.mpr hu))

theorem toNat_succ_of_lookup {i : Instr} (h : lookup o u = some i) : (u + 1#4).toNat = u.toNat + 1 := by
  have := (le_endPlace_of_lookup h).trans (endPlace_le o)
  rw [BitVec.toNat_add, BitVec.toNat_ofNat]
  omega

/-- The place of the first micro-operation that writes `Z`. -/
def zPlace : Op → Nat
  | .subct => 0
  | .bchain => 0
  | .cmadd => 5
  | .subbr => 0

/-- The place of `B2M`, the four `AND`s being right behind it; for the commands that have none, a place none of their
micro-operations reaches. -/
def maskPlace : Op → Nat
  | .subct => 4
  | .bchain => 14
  | .cmadd => 0
  | .subbr => 14

theorem place_of_sbb {i : LimbIx} :
    lookup o u = some (.sbb i) → u.toNat = zPlace o + i.val ∧ u.toNat < maskPlace o := by
  rw [lookup_eq_microOps]
  cases o <;> revert u i <;> decide

theorem place_of_b2m :
    lookup o u = some .b2m → u.toNat = maskPlace o ∧ (u.toNat < zPlace o ∨ zPlace o + 4 ≤ u.toNat) := by
  rw [lookup_eq_microOps]
  cases o <;> revert u <;> decide

theorem place_of_and {i : LimbIx} : lookup o u = some (.and i) →
    u.toNat = maskPlace o + 1 + i.val ∧ (u.toNat < zPlace o ∨ zPlace o + 4 ≤ u.toNat) := by
  rw [lookup_eq_microOps]
  cases o <;> revert u i <;> decide

/-- `ADC i` writes a limb of `Z` for the first time under `CMADD`, and for the second time under `SUBCT`. -/
theorem place_of_adc {i : LimbIx} : lookup o u = some (.adc i) →
    (u.toNat = zPlace o + i.val ∨ zPlace o + 4 ≤ u.toNat) ∧ maskPlace o + 5 ≤ u.toNat := by
  rw [lookup_eq_microOps]
  cases o <;> revert u i <;> decide

theorem place_of_adcp {i : LimbIx} :
    lookup o u = some (.adcp i) → zPlace o + 4 ≤ u.toNat ∧ u.toNat < maskPlace o := by
  rw [lookup_eq_microOps]
  cases o <;> revert u i <;> decide

theorem place_of_br : lookup o u = some .br → o = .subbr ∧ u = 4#4 := by
  rw [lookup_eq_microOps]
  cases o <;> revert u <;> decide

/-! ## How far a command has come (R14, R17, R19) -/

section
variable {α : Type} {q : Quad (Option α)} {first done done' : Nat}

theorem filledUpTo_iff :
    filledUpTo q first done = true ↔ ∀ i : LimbIx, (q.get i).isSome = decide (first + i.val < done) :=
  decide_eq_true_iff

/-- Only the four places from `first` on count. -/
theorem filledUpTo_congr (h : ∀ i : LimbIx, first + i.val < done ↔ first + i.val < done') :
    filledUpTo q first done = filledUpTo q first done' := by
  simp only [filledUpTo, h]

/-- At another place than its four nothing is to be written. -/
theorem filledUpTo_succ (h : filledUpTo q first done = true) (hd : done < first ∨ first + 4 ≤ done) :
    filledUpTo q first (done + 1) = true :=
  (filledUpTo_congr fun i => by omega).symm.trans h

/-- A limb written at its own place, or written again once all four hold values. -/
theorem filledUpTo_set_succ {i : LimbIx} {v : α} (h : filledUpTo q first done = true)
    (hd : done = first + i.val ∨ first + 4 ≤ done) : filledUpTo (q.set i (some v)) first (done + 1) = true := by
  rw [filledUpTo_iff] at h ⊢
  intro j
  have hj := j.isLt
  rw [Quad.get_set]
  split
  case isTrue hji =>
    subst hji
    simp only [Option.isSome_some, Bool.true_eq, decide_eq_true_iff]
    omega
  case isFalse hji =>
    have hv : j.val ≠ i.val := fun hv => hji (Fin.ext hv)
    rw [h j, decide_eq_decide]
    omega

/-- None of the four limbs is written up to the first place. -/
theorem filledUpTo_of_le (h : done ≤ first) : filledUpTo q first done = true ↔ q = Quad.fill none := by
  rw [filledUpTo_iff]
  constructor
  · intro hq
    refine Quad.ext_get fun i => ?_
    have hi := hq i
    rw [decide_eq_false (by omega), Option.isSome_eq_false_iff, Option.isNone_iff_eq_none] at hi
    rw [hi, Quad.get_fill]
  · rintro rfl i
    rw [Quad.get_fill, decide_eq_false (by omega), Option.isSome_none]

theorem values_isSome_of_filledUpTo (h : filledUpTo q first done = true) (hd : first + 4 ≤ done) :
    q.values.isSome = true := by
  rw [Quad.values_isSome_iff]
  intro i
  rw [filledUpTo_iff.mp h i, decide_eq_true_iff]
  omega

end

/-- `progressOk` for all four commands at once. -/
structure Progress (o : Op) (done : Nat) (s : State) : Prop where
  le : done ≤ endPlace o
  z : filledUpTo s.z (zPlace o) done = true
  mask : s.mask.isSome = decide (maskPlace o < done)
  m : filledUpTo s.m (maskPlace o + 1) done = true

theorem progressOk_iff {done : Nat} : progressOk o done s = true ↔ Progress o done s := by
  have h : progressOk o done s = true ↔ done ≤ endPlace o ∧ filledUpTo s.z (zPlace o) done = true ∧
      s.mask.isSome = decide (maskPlace o < done) ∧ filledUpTo s.m (maskPlace o + 1) done = true := by
    have unmasked (ho : maskPlace o = 14) (hd : done ≤ 9) : decide (maskPlace o < done) = false ∧
        filledUpTo s.m (maskPlace o + 1) done = filledUpTo s.m 5 0 :=
      ⟨decide_eq_false (by omega), by rw [Bool.eq_iff_iff, filledUpTo_of_le (by omega), filledUpTo_of_le (by omega)]⟩
    cases o <;>
      simp only [progressOk, endPlace, zPlace, Bool.and_eq_true, decide_eq_true_iff, beq_iff_eq, and_assoc]
    case subct => exact Iff.rfl
    case bchain => exact and_congr_right fun hd => by rw [(unmasked rfl (by omega)).1, (unmasked rfl (by omega)).2]
    case cmadd => exact Iff.rfl
    case subbr => exact and_congr_right fun hd => by rw [(unmasked rfl hd).1, (unmasked rfl hd).2]
  exact h.trans ⟨fun ⟨hle, hz, hk, hm⟩ => ⟨hle, hz, hk, hm⟩, fun ⟨hle, hz, hk, hm⟩ => ⟨hle, hz, hk, hm⟩⟩

/-- A micro-operation that writes a limb of `Z` and no mask takes a command one place on. -/
theorem Progress.set_z {done : Nat} {i : LimbIx} {v : Limb} {bw cy : Option Bool} (h : Progress o done s)
    (he : done < endPlace o) (hz : done = zPlace o + i.val ∨ zPlace o + 4 ≤ done)
    (hm : done < maskPlace o ∨ maskPlace o + 5 ≤ done) :
    Progress o (done + 1) { s with z := s.z.set i (some v), bw := bw, cy := cy } where
  le := he
  z := filledUpTo_set_succ h.z hz
  mask := by rw [h.mask, decide_eq_decide]; omega
  m := filledUpTo_succ h.m (by omega)

/-- Once the four limbs of `Z` are written, a command without a mask is as far at every later place. -/
theorem Progress.later {done done' : Nat} (h : Progress o done s) (hz : zPlace o + 4 ≤ done) (hd : done ≤ done')
    (hm : done' ≤ maskPlace o) (he : done' ≤ endPlace o) : Progress o done' s where
  le := he
  z := (filledUpTo_congr fun i => by omega).symm.trans h.z
  mask := by rw [h.mask, decide_eq_decide]; omega
  m := (filledUpTo_congr fun i => by omega).symm.trans h.m

/-- The event of a micro-operation in the long trace of its command, where a branch is taken (R23). -/
def takenEvent : Instr → Option Event
  | .subct _ _ _ => none
  | .bchain _ _ _ => none
  | .cmadd _ _ _ => none
  | .subbr _ _ _ => none
  | .sbb i => some (.sbb i)
  | .b2m => some .b2m
  | .and i => some (.and i)
  | .adc i => some (.adc i)
  | .adcp i => some (.adcp i)
  | .br => some (.br true)
  | .endOp => some .endOp

/-- The long trace of a command holds the event of each micro-operation at its place. -/
theorem commandTrace_of_lookup {i : Instr} {e : Event} (hl : lookup o u = some i) (he : takenEvent i = some e) :
    (commandTrace o true)[u.toNat]? = some e := by
  have h : (commandTrace o true).map some = (microOps o).map takenEvent := by cases o <;> rfl
  have hu := congrArg (·[u.toNat]?) h
  simp only [List.getElem?_map, ← lookup_eq_microOps, hl, Option.map_some, he] at hu
  exact Option.map_injective (Option.some_injective Event) hu

theorem traceOk_iff {done : Nat} {l : List Event} : traceOk o done l = true ↔
    l = (commandTrace o true).take done ∨ (o = .subbr ∧ done = 9 ∧ l = (commandTrace .subbr false).take 5) := by
  simp only [traceOk, Bool.or_eq_true, Bool.and_eq_true, decide_eq_true_iff, and_assoc]

/-- A micro-operation that is not the last, with the event it has when a branch is taken, carries the trace on. -/
theorem traceOk_append {i : Instr} {e : Event} {l : List Event} (h : traceOk o u.toNat l = true)
    (hl : lookup o u = some i) (hi : i ≠ .endOp) (he : takenEvent i = some e) :
    traceOk o (u.toNat + 1) (l ++ [e]) = true := by
  have hlt := lt_endPlace_of_lookup hl hi
  rcases traceOk_iff.mp h with rfl | ⟨rfl, h9, -⟩
  · refine traceOk_iff.mpr (.inl ?_)
    rw [List.take_add_one, commandTrace_of_lookup hl he, Option.toList_some]
  · exact absurd h9 hlt.ne

/-- `END` makes the trace of a command in flight that of the whole command. -/
theorem trace_append_endOp {l : List Event} (h : traceOk o u.toNat l = true) (hl : lookup o u = some .endOp) :
    ∃ b, l ++ [.endOp] = commandTrace o b := by
  rcases traceOk_iff.mp h with rfl | ⟨rfl, -, rfl⟩
  · refine ⟨true, ?_⟩
    rw [lookup_eq_endOp_iff.mp hl]
    cases o <;> rfl
  · exact ⟨false, rfl⟩

theorem maskOk_iff : maskOk s = true ↔ ∀ v, s.mask = some v →
    (v = 0#64 ∨ v = BitVec.allOnes 64) ∧ ∀ i : LimbIx, s.m.get i = none ∨ s.m.get i = some (memRead i &&& v) := by
  unfold maskOk
  cases s.mask <;> simp

/-! ## The three kinds of state that meet the invariant -/

/-- What the invariant says of a command in flight at whatever place. -/
structure Running (o : Op) (s : State) : Prop where
  busy : s.busy = true
  op : s.op = some o
  rvalid : s.rvalid = false
  fout : s.fout = none
  x : s.x.values.isSome = true
  y : s.y.values.isSome = true
  fin : s.fin.isSome = true
  bw : s.bw.isSome = true
  cy : s.cy.isSome = true
  masked : maskOk s = true

/-- What the invariant says of a command in flight. -/
structure InFlight (o : Op) (s : State) : Prop extends Running o s where
  progress : Progress o s.upc.toNat s
  trace : traceOk o s.upc.toNat s.trace = true

/-- What the invariant says of a state in which the result of command `o` stands. -/
structure ResultStands (o : Op) (s : State) : Prop where
  busy : s.busy = false
  rvalid : s.rvalid = true
  upc : s.upc = 0#4
  bw : s.bw = none
  cy : s.cy = none
  mask : s.mask = none
  m : s.m = Quad.fill none
  x : s.x.values.isSome = true
  y : s.y.values.isSome = true
  z : s.z.values.isSome = true
  fin : s.fin.isSome = true
  op : s.op = some o
  fout : ∃ f, s.fout = some f ∧ (o ≠ .bchain → f = false)
  trace : ∃ b, s.trace = commandTrace o b

theorem InFlight.inv (h : InFlight o s) : s.Inv := by
  simp only [State.Inv, h.busy, if_true]
  exact ⟨o, h.op, h.rvalid, h.fout, h.x, h.y, h.fin, h.bw, h.cy, progressOk_iff.mpr h.progress, h.trace, h.masked⟩

theorem ResultStands.inv (h : ResultStands o s) : s.Inv := by
  simp only [State.Inv, h.busy, h.rvalid, Bool.false_eq_true, if_false, if_true]
  obtain ⟨f, hf, hbc⟩ := h.fout
  obtain ⟨b, ht⟩ := h.trace
  exact ⟨h.upc, h.bw, h.cy, h.mask, h.m, h.x, h.y, h.z, h.fin, o, f, b, h.op, hf, hbc, ht⟩

theorem inv_resetMove (s : State) : s.resetMove.Inv :=
  ⟨rfl, rfl, rfl, rfl, rfl, rfl⟩

/-- A state meets the invariant where a command is in flight, a result stands, or every register is as after reset. -/
theorem inv_iff : s.Inv ↔ (∃ o, InFlight o s) ∨ (∃ o, ResultStands o s) ∨ s = s.resetMove := by
  constructor
  case mp =>
    intro h
    unfold State.Inv at h
    split at h
    case isTrue hb =>
      obtain ⟨o, hop, hrv, hfo, hx, hy, hfin, hbw, hcy, hp, ht, hm⟩ := h
      exact .inl ⟨o, ⟨hb, hop, hrv, hfo, hx, hy, hfin, hbw, hcy, hm⟩, progressOk_iff.mp hp, ht⟩
    case isFalse hb =>
      obtain ⟨hu, hbw, hcy, hk, hm, h⟩ := h
      split at h
      case isTrue hv =>
        obtain ⟨hx, hy, hz, hfin, o, f, b, hop, hf, hbc, ht⟩ := h
        exact .inr (.inl ⟨o, by simpa using hb, hv, hu, hbw, hcy, hk, hm, hx, hy, hz, hfin, hop, ⟨f, hf, hbc⟩, b, ht⟩)
      case isFalse => exact .inr (.inr h)
  case mpr =>
    rintro (⟨o, h⟩ | ⟨o, h⟩ | h)
    · exact h.inv
    · exact h.inv
    · rw [h]
      exact inv_resetMove s

/-- Where a command is in flight the invariant speaks of that command. -/
theorem inFlight_of_busy (h : s.Inv) (hb : s.busy = true) : ∃ o, InFlight o s := by
  rcases inv_iff.mp h with h | ⟨o, h⟩ | h
  · exact h
  · simp [h.busy] at hb
  · rw [h] at hb
    cases hb

/-- What the host drives next is no part of a command in flight. -/
theorem InFlight.tick (h : InFlight o s) : InFlight o s.tick :=
  { h with progress := { h.progress with } }

/-- What the host drives next is no part of the invariant. -/
theorem inv_tick (h : s.Inv) : s.tick.Inv := by
  rcases inv_iff.mp h with ⟨o, h⟩ | ⟨o, h⟩ | h
  · exact h.tick.inv
  · exact ResultStands.inv { h with }
  · exact inv_iff.mpr (.inr (.inr (congrArg State.tick h)))

/-! ## Every move keeps the invariant -/

/-- The close of a micro-operation but `BR` and `END`: what is left to show is that the registers it leaves are those of the
next place. -/
theorem InFlight.advance {s' : State} {i : Instr} {e : Event} (h : InFlight o s) (hl : lookup o s.upc = some i)
    (hi : i ≠ .endOp) (he : takenEvent i = some e) (hu : s'.upc = s.upc) (ht : s'.trace = s.trace) (hr : Running o s')
    (hp : Progress o (s.upc.toNat + 1) s') : InFlight o (s'.advance e) := by
  have hnext : (s'.advance e).upc.toNat = s.upc.toNat + 1 := by
    rw [State.advance_upc, hu, toNat_succ_of_lookup hl]
  refine { hr with progress := ?_, trace := ?_ }
  · rw [hnext]
    exact { hp with }
  · rw [hnext, State.advance_trace, ht]
    exact traceOk_append h.trace hl hi he

theorem InFlight.sbb {i : LimbIx} (h : InFlight o s) (hl : lookup o s.upc = some (.sbb i))
    (he : execSbb i s = .next t) : InFlight o t := by
  obtain ⟨hz, hm⟩ := place_of_sbb hl
  obtain ⟨a, b, c, -, -, -, rfl⟩ := execSbb_inv he
  have hlt := lt_endPlace_of_lookup hl nofun
  exact h.advance hl nofun rfl rfl rfl { h with bw := rfl } (h.progress.set_z hlt (.inl hz) (.inl hm))

theorem InFlight.b2m (h : InFlight o s) (hl : lookup o s.upc = some .b2m) (he : execB2m s = .next t) :
    InFlight o t := by
  obtain ⟨hm, hz⟩ := place_of_b2m hl
  obtain ⟨-, f, -, -, rfl⟩ := execB2m_inv he
  have hempty : s.m = Quad.fill none := (filledUpTo_of_le (by omega)).mp h.progress.m
  refine h.advance hl nofun rfl rfl rfl { h with masked := maskOk_iff.mpr ?_ } ?_
  · rintro v ⟨⟩
    exact ⟨by cases f <;> simp, fun i => .inl (by simp [hempty])⟩
  · exact {
      le := lt_endPlace_of_lookup hl nofun
      z := filledUpTo_succ h.progress.z hz
      mask := by rw [decide_eq_true (by omega)]; rfl
      m := filledUpTo_succ h.progress.m (by omega) }

theorem InFlight.and {i : LimbIx} (h : InFlight o s) (hl : lookup o s.upc = some (.and i))
    (he : execAnd i s = .next t) : InFlight o t := by
  obtain ⟨hm, hz⟩ := place_of_and hl
  obtain ⟨v, hv, rfl⟩ := execAnd_inv he
  obtain ⟨hbits, hlimbs⟩ := maskOk_iff.mp h.masked v hv
  refine h.advance hl nofun rfl rfl rfl { h with masked := maskOk_iff.mpr ?_ } ?_
  · intro w hw
    obtain rfl : v = w := Option.some.inj (hv.symm.trans hw)
    refine ⟨hbits, fun j => ?_⟩
    rw [Quad.get_set]
    split
    case isTrue hji => exact .inr (by rw [hji])
    case isFalse => exact hlimbs j
  · exact {
      le := lt_endPlace_of_lookup hl nofun
      z := filledUpTo_succ h.progress.z hz
      mask := by rw [h.progress.mask, decide_eq_decide]; omega
      m := filledUpTo_set_succ h.progress.m (.inl hm) }

theorem InFlight.adc {i : LimbIx} (h : InFlight o s) (hl : lookup o s.upc = some (.adc i))
    (he : execAdc i s = .next t) : InFlight o t := by
  obtain ⟨hz, hm⟩ := place_of_adc hl
  obtain ⟨-, a, b, c, -, -, -, -, rfl⟩ := execAdc_inv he
  have hlt := lt_endPlace_of_lookup hl nofun
  exact h.advance hl nofun rfl rfl rfl { h with cy := rfl } (h.progress.set_z hlt hz (.inr hm))

theorem InFlight.adcp {i : LimbIx} (h : InFlight o s) (hl : lookup o s.upc = some (.adcp i))
    (he : execAdcp i s = .next t) : InFlight o t := by
  obtain ⟨hz, hm⟩ := place_of_adcp hl
  obtain ⟨a, c, -, -, rfl⟩ := execAdcp_inv he
  have hlt := lt_endPlace_of_lookup hl nofun
  exact h.advance hl nofun rfl rfl rfl { h with cy := rfl } (h.progress.set_z hlt (.inr hz) (.inl hm))

/-- A branch of `SUBBR` not taken goes to its `END` with the short trace, one taken to the first `ADCP` (R86). -/
theorem InFlight.br (h : InFlight o s) (hl : lookup o s.upc = some .br) (he : execBr s = .next t) : InFlight o t := by
  obtain ⟨rfl, hu⟩ := place_of_br hl
  obtain ⟨taken, -, rfl⟩ := execBr_inv he
  have hp : Progress .subbr 4 s := by simpa [hu] using h.progress
  have ht : traceOk .subbr 4 s.trace = true := by simpa [hu] using h.trace
  have hcut : s.trace = (commandTrace .subbr true).take 4 := by
    rcases traceOk_iff.mp ht with ht | ⟨-, h9, -⟩
    · exact ht
    · cases h9
  cases taken with
  | false =>
    exact { h with
      progress := { hp.later (done' := 9) (by decide) (by decide) (by decide) (by decide) with }
      trace := traceOk_iff.mpr (.inr ⟨rfl, rfl, congrArg (· ++ [Event.br false]) hcut⟩) }
  | true =>
    exact { h with
      progress := { hp.later (done' := 5) (by decide) (by decide) (by decide) (by decide) with }
      trace := traceOk_iff.mpr (.inl (congrArg (· ++ [Event.br true]) hcut)) }

/-- `END` shows the result, all four limbs of `Z` being written by then. -/
theorem InFlight.endOp (h : InFlight o s) (hl : lookup o s.upc = some .endOp) (he : execEnd s = .next t) :
    ResultStands o t := by
  obtain ⟨o', f, ho, -, hf, rfl⟩ := execEnd_inv he
  obtain rfl : o' = o := Option.some.inj (ho.symm.trans h.op)
  have hz : s.z.values.isSome = true := by
    refine values_isSome_of_filledUpTo h.progress.z ?_
    rw [lookup_eq_endOp_iff.mp hl]
    cases o' <;> decide
  exact ⟨rfl, rfl, rfl, rfl, rfl, rfl, rfl, h.x, h.y, hz, h.fin, ho, ⟨f, rfl, hf⟩, trace_append_endOp h.trace hl⟩

/-- Every micro-operation keeps the invariant at the places its microprogram has it. -/
theorem InFlight.inv_exec {i : Instr} (h : InFlight o s) (hl : lookup o s.upc = some i) (he : exec i s = .next t) :
    t.Inv := by
  have hi := isMicroOp_of_lookup hl
  cases i with
  | subct => cases hi
  | bchain => cases hi
  | cmadd => cases hi
  | subbr => cases hi
  | sbb i => exact (h.sbb hl he).inv
  | b2m => exact (h.b2m hl he).inv
  | and i => exact (h.and hl he).inv
  | adc i => exact (h.adc hl he).inv
  | adcp i => exact (h.adcp hl he).inv
  | br => exact (h.br hl he).inv
  | endOp => exact (h.endOp hl he).inv

/-- An issue puts its command in flight at the first place (R121). -/
theorem inFlight_of_issue {x y : Wide} {fin : Bool} (hb : s.busy = false) (h : issue o x y fin s = .next t) :
    InFlight o t := by
  rw [issue_of_idle o x y fin s hb] at h
  cases h
  have hnone {first : Nat} : filledUpTo (Quad.fill none : Quad (Option Limb)) first 0 = true :=
    (filledUpTo_of_le (Nat.zero_le first)).mpr rfl
  exact {
    busy := rfl, op := rfl, rvalid := rfl, fout := rfl, x := rfl, y := rfl, fin := rfl, bw := rfl, cy := rfl
    masked := rfl
    progress := ⟨Nat.zero_le _, hnone, rfl, hnone⟩
    trace := traceOk_iff.mpr (.inl rfl) }

/-- Settles O45: by what the step does (`step_cases`), a micro-operation by `InFlight.inv_exec`. -/
theorem invariantKeptByEveryStep : Obligations.InvariantKeptByEveryStep := by
  intro s t hs h
  rcases step_cases h with ⟨-, rfl⟩ | ⟨-, hb, o, i, ho, hl, he⟩ | ⟨-, hb, -, he⟩ | ⟨-, -, -, rfl⟩
  · exact inv_resetMove _
  · obtain ⟨o', hs⟩ := inFlight_of_busy hs hb
    obtain rfl : o' = o := Option.some.inj (hs.op.symm.trans ho)
    exact hs.tick.inv_exec hl he
  · exact (inFlight_of_issue (s := s.tick) hb he).inv
  · exact inv_tick hs

end Machine

end Sys2Proof
end
section
/-! PROOFS. The micro-operations on the registers (10_state.md R11, R12, R20, R25): which registers each needs to hold a
value, and which it leaves as they are. -/

namespace Sys2Proof.Machine

variable {s t : State}

/-- The outcome is a next state where all the registers listed hold values, and the fault on one that does not otherwise
(R20). -/
def StopsExactlyOn (s : State) (rs : List Reg) (out : Host.Outcome State Fault Refusal) : Prop :=
  ((∀ r ∈ rs, s.holds r = true) → ∃ t, out = .next t) ∧
  ((∃ r ∈ rs, s.holds r = false) → ∃ r ∈ rs, s.holds r = false ∧ out = .fault (.noValue r))

theorem StopsExactlyOn.next (s t : State) : StopsExactlyOn s [] (.next t) :=
  ⟨fun _ => ⟨t, rfl⟩, fun ⟨_, hr, _⟩ => nomatch hr⟩

/-- Reading a register adds it to those that must hold a value. -/
theorem StopsExactlyOn.read {α : Type} {r : Reg} {rs : List Reg} {v : Option α}
    {k : α → Host.Outcome State Fault Refusal} (hv : s.holds r = v.isSome)
    (hk : ∀ a, v = some a → StopsExactlyOn s rs (k a)) : StopsExactlyOn s (r :: rs) (readReg r v k) := by
  cases v with
  | none =>
    have hr : s.holds r = false := hv
    refine ⟨fun hall => ?_, fun _ => ⟨r, List.mem_cons_self, hr, rfl⟩⟩
    exact absurd (hall r List.mem_cons_self) (by simp [hr])
  | some a =>
    have hr : s.holds r = true := hv
    obtain ⟨hrun, hstop⟩ := hk a rfl
    refine ⟨fun hall => hrun fun q hq => hall q (List.mem_cons_of_mem r hq), ?_⟩
    rintro ⟨q, hq, hn⟩
    rcases List.mem_cons.mp hq with rfl | hq
    · simp [hr] at hn
    · obtain ⟨q', hq', hn', hf⟩ := hstop ⟨q, hq, hn⟩
      exact ⟨q', List.mem_cons_of_mem r hq', hn', hf⟩

/-- Each micro-operation reads the registers its rule lists, one after another. -/
theorem exec_stopsExactlyOn_operandRegs {i : Instr} (hi : isMicroOp i = true) (s : State) :
    StopsExactlyOn s (operandRegs i s) (exec i s) := by
  cases i with
  | subct => cases hi
  | bchain => cases hi
  | cmadd => cases hi
  | subbr => cases hi
  | sbb i => exact .read rfl fun a _ => .read rfl fun b _ => .read rfl fun c _ => .next _ _
  | b2m =>
    refine .read rfl fun o ho => ?_
    simp only [ho, Option.some.injEq]
    exact .read (by split <;> rfl) fun f _ => .next _ _
  | and i => exact .read rfl fun v _ => .next _ _
  | adc i =>
    refine .read rfl fun o ho => ?_
    simp only [ho, Option.some.injEq]
    exact .read (by split <;> rfl) fun a _ => .read rfl fun b _ => .read rfl fun c _ => .next _ _
  | adcp i => exact .read rfl fun a _ => .read rfl fun c _ => .next _ _
  | br => exact .read rfl fun c _ => .next _ _
  | endOp =>
    by_cases hb : s.op = some .bchain
    case pos =>
      simp only [operandRegs, hb, if_true]
      refine .read rfl fun o ho => ?_
      obtain rfl : Op.bchain = o := Option.some.inj (hb.symm.trans ho)
      exact .read rfl fun f _ => .next _ _
    case neg =>
      simp only [operandRegs, hb, if_false]
      refine .read rfl fun o ho => ?_
      rw [if_neg fun hob => hb (by rw [ho, hob])]
      exact .next _ _

/-- Settles O35. -/
theorem microOpRunsExactlyOnHeldOperands : Obligations.MicroOpRunsExactlyOnHeldOperands :=
  fun _ s hi => exec_stopsExactlyOn_operandRegs hi s

/-- `t` has the operands, the command and the coming port values of `s`, and one event more (R11, R12, R23). -/
structure KeepsOperands (s t : State) : Prop where
  x : t.x = s.x
  y : t.y = s.y
  op : t.op = s.op
  fin : t.fin = s.fin
  inputs : t.inputs = s.inputs
  trace : ∃ e, t.trace = s.trace ++ [e]

/-- `t` has the status and the result flag of `s` (R18). -/
structure KeepsStatus (s t : State) : Prop where
  busy : t.busy = s.busy
  rvalid : t.rvalid = s.rvalid
  fout : t.fout = s.fout

/-- The close of a micro-operation that wrote `Z`, `M`, `MASK` or the flags. -/
theorem keeps_advance (s : State) (z m : Quad (Option Limb)) (mask : Option Limb) (bw cy : Option Bool) (e : Event) :
    let t := State.advance { s with z := z, m := m, mask := mask, bw := bw, cy := cy } e
    KeepsOperands s t ∧ KeepsStatus s t :=
  ⟨⟨rfl, rfl, rfl, rfl, rfl, e, rfl⟩, rfl, rfl, rfl⟩

/-- Every micro-operation but `END` keeps the operands and the status. -/
theorem exec_keeps {i : Instr} (hi : isMicroOp i = true) (hne : i ≠ .endOp) (h : exec i s = .next t) :
    KeepsOperands s t ∧ KeepsStatus s t := by
  cases i with
  | subct => cases hi
  | bchain => cases hi
  | cmadd => cases hi
  | subbr => cases hi
  | sbb i => obtain ⟨a, b, c, -, -, -, rfl⟩ := execSbb_inv h; exact keeps_advance s ..
  | b2m => obtain ⟨o, f, -, -, rfl⟩ := execB2m_inv h; exact keeps_advance s ..
  | and i => obtain ⟨v, -, rfl⟩ := execAnd_inv h; exact keeps_advance s ..
  | adc i => obtain ⟨o, a, b, c, -, -, -, -, rfl⟩ := execAdc_inv h; exact keeps_advance s ..
  | adcp i => obtain ⟨a, c, -, -, rfl⟩ := execAdcp_inv h; exact keeps_advance s ..
  | br => obtain ⟨c, -, rfl⟩ := execBr_inv h; exact ⟨⟨rfl, rfl, rfl, rfl, rfl, _, rfl⟩, rfl, rfl, rfl⟩
  | endOp => exact absurd rfl hne

theorem execEnd_keepsOperands (h : execEnd s = .next t) : KeepsOperands s t := by
  obtain ⟨o, f, -, -, -, rfl⟩ := execEnd_inv h
  exact ⟨rfl, rfl, rfl, rfl, rfl, _, rfl⟩

/-- Settles O36: `END` apart, which writes the status. -/
theorem microOpsKeepOperands : Obligations.MicroOpsKeepOperands := by
  intro i s t hi h
  by_cases hne : i = .endOp
  case pos =>
    subst hne
    obtain ⟨hx, hy, hop, hfin, hin, htr⟩ := execEnd_keepsOperands h
    exact ⟨hx, hy, hop, hfin, hin, htr, fun hn => absurd rfl hn⟩
  case neg =>
    obtain ⟨⟨hx, hy, hop, hfin, hin, htr⟩, hb, hv, hf⟩ := exec_keeps hi hne h
    exact ⟨hx, hy, hop, hfin, hin, htr, fun _ => ⟨hb, hv, hf⟩⟩

end Sys2Proof.Machine
end

section
/-! PROOFS. What the invariant and the reset say of the ports and the counter (10_state.md R18, R19, R24; R45, R115, R122,
R123). -/

namespace Sys2Proof.Machine

variable {s : State}

theorem hostRead_of_rvalid_false (h : s.rvalid = false) : s.hostRead = none := by
  simp [State.hostRead, h]

/-- R123: the read move gives `Z` and `FOUT`. -/
theorem hostRead_eq_some_iff {z : Quad Limb} {f : Bool} :
    s.hostRead = some (z, f) ↔ s.rvalid = true ∧ s.z = z.map some ∧ s.fout = some f := by
  rw [← Quad.values_eq_some_iff]
  unfold State.hostRead
  cases s.rvalid <;> cases s.z.values <;> cases s.fout <;> simp

/-- A result that stands can be read. -/
theorem ResultStands.hostRead {o : Op} (h : ResultStands o s) : ∃ r, s.hostRead = some r := by
  obtain ⟨z, hz⟩ := Option.isSome_iff_exists.mp h.z
  obtain ⟨f, hf, -⟩ := h.fout
  exact ⟨(z, f), hostRead_eq_some_iff.mpr ⟨h.rvalid, (Quad.values_eq_some_iff _ _).mp hz, hf⟩⟩

/-- R18, R122, R123: there is a result to read exactly while `RVALID` is 1. -/
theorem hostRead_isSome_of_inv (h : s.Inv) : s.hostRead.isSome = s.rvalid := by
  rcases inv_iff.mp h with ⟨o, h⟩ | ⟨o, h⟩ | h
  · rw [hostRead_of_rvalid_false h.rvalid, h.rvalid, Option.isSome_none]
  · obtain ⟨r, hr⟩ := h.hostRead
    rw [hr, h.rvalid, Option.isSome_some]
  · rw [h]
    rfl

theorem not_busy_and_rvalid_of_inv (h : s.Inv) : (s.busy && s.rvalid) = false := by
  rcases inv_iff.mp h with ⟨o, h⟩ | ⟨o, h⟩ | h
  · rw [h.rvalid, Bool.and_false]
  · rw [h.busy, Bool.false_and]
  · rw [h]
    rfl

/-- The response word of `z` and `f` (R45). -/
theorem rspWord_fields (z : Quad Limb) (f : Bool) :
    (BitVec.ofBool f ++ toPort z).getLsbD 256 = f ∧ (BitVec.ofBool f ++ toPort z).toNat % 2 ^ 256 = val z := by
  constructor
  · have h256 : ¬ 256 < 256 := by decide
    simp only [BitVec.getLsbD_append, h256, if_false]
    cases f <;> rfl
  · rw [toNat_append_eq_add, toNat_toPort, Nat.mul_add_mod_self_right, Nat.mod_eq_of_lt (val_lt z)]

/-- Settles O47. -/
theorem readEnabledExactlyWhenResultValid : Obligations.ReadEnabledExactlyWhenResultValid := by
  intro s h
  refine ⟨not_busy_and_rvalid_of_inv h, hostRead_isSome_of_inv h, ?_, fun z f w hr hw => ?_⟩
  · rw [State.rsp, Option.isSome_map, hostRead_isSome_of_inv h]
  · obtain ⟨-, hz, hf⟩ := hostRead_eq_some_iff.mp hr
    rw [State.rsp, hr, Option.map_some, Option.some.injEq] at hw
    subst hw
    obtain ⟨hflag, hval⟩ := rspWord_fields z f
    exact ⟨hflag, hval, hz, hf⟩

theorem upc_of_idle (h : s.Inv) (hb : s.busy = false) : s.upc = 0#4 := by
  rcases inv_iff.mp h with ⟨o, h⟩ | ⟨o, h⟩ | h
  · exact absurd h.busy (by simp [hb])
  · exact h.upc
  · rw [h]
    rfl

/-- Settles O48: the bounds are the places of `END`. -/
theorem counterStaysInTheMicroprogram : Obligations.CounterStaysInTheMicroprogram := by
  refine fun s h => ⟨upc_of_idle h, fun hb => ?_⟩
  obtain ⟨o, hs⟩ := inFlight_of_busy h hb
  refine ⟨o, hs.op, hs.progress.le.trans (le_of_eq ?_)⟩
  cases o <;> rfl

/-- Settles O41: that no step is enabled is `noStepEnabled_of_idle`, for every host. -/
theorem resetValues : Obligations.ResetValues := by
  have hnone (i : LimbIx) : (Quad.fill none : Quad (Option Limb)).get i = none := Quad.get_fill none i
  exact ⟨rfl, rfl, rfl, fun i => ⟨hnone i, hnone i, hnone i, hnone i⟩, rfl, rfl, rfl, rfl, rfl, rfl, rfl,
    rfl, rfl, rfl, rfl, rfl, rfl, noStepEnabled_of_idle rfl⟩

/-- Settles O44: the state after reset is what the reset move makes of it. -/
theorem invariantAtReset : Obligations.InvariantAtReset :=
  inv_resetMove State.reset

end Sys2Proof.Machine
end

section
/-! PROOFS. The memory rules (20_memory.md): the byte image of a port value (R32), and the modulus ROM indices a whole
command reads (R41). -/

namespace Sys2Proof.Machine

/-! ## The byte image (R32) -/

@[simp] theorem length_toBytes (w : Wide) : (toBytes w).length = 32 := by
  rw [toBytes, List.length_map, List.length_range]

/-- R32: byte `k` of the image is the 8 bits of the port from bit `8 * k` on. -/
theorem getD_toBytes (w : Wide) {k : Nat} (hk : k < 32) : (toBytes w).getD k 0#8 = w.extractLsb' (8 * k) 8 := by
  rw [toBytes, List.getD_eq_getElem _ _ (by simpa using hk), List.getElem_map, List.getElem_range]

/-- Reading back the `n` lowest bytes of a number gives its low `8 * n` bits; byte 0 is split off, and the rest are the
bytes of the number shifted right by 8. -/
theorem foldr_lowBytes (n v : Nat) :
    ((List.range n).map fun k => BitVec.ofNat 8 (v >>> (8 * k))).foldr (fun b m => b.toNat + 2 ^ 8 * m) 0 =
      v % 2 ^ (8 * n) := by
  induction n generalizing v with
  | zero => rw [Nat.mul_zero, Nat.pow_zero, Nat.mod_one]; rfl
  | succ n ih =>
    have hshift (k : Nat) : v >>> (8 * (k + 1)) = (v >>> 8) >>> (8 * k) := by
      rw [← Nat.shiftRight_add, Nat.mul_add, Nat.add_comm]
    have hpow : 2 ^ (8 * (n + 1)) = 2 ^ 8 * 2 ^ (8 * n) := by rw [← Nat.pow_add, Nat.mul_add, Nat.add_comm]
    simp only [List.range_succ_eq_map, List.map_cons, List.map_map, Function.comp_def, Nat.succ_eq_add_one, hshift,
      List.foldr_cons, ih, BitVec.toNat_ofNat]
    rw [hpow, Nat.mod_mul, Nat.mul_zero, Nat.shiftRight_zero, Nat.shiftRight_eq_div_pow]

@[simp] theorem ofBytes_toBytes (w : Wide) : ofBytes (toBytes w) = w := by
  have himage : ofBytes (toBytes w) = BitVec.ofNat 256 (w.toNat % 2 ^ (8 * 32)) :=
    congrArg (BitVec.ofNat 256) (foldr_lowBytes 32 w.toNat)
  rw [himage, Nat.mod_eq_of_lt w.isLt, BitVec.ofNat_toNat, BitVec.setWidth_eq]

/-- Settles O7: the bits by `getD_toBytes`, reading back by `ofBytes_toBytes`. -/
theorem byteImageLittleEndian : Obligations.ByteImageLittleEndian := by
  refine fun w => ⟨length_toBytes w, ofBytes_toBytes w, fun k j hk hj => ?_⟩
  rw [getD_toBytes w hk, BitVec.getLsbD_extractLsb', decide_eq_true hj, Bool.true_and]

/-! ## The ROM indices of a whole command (R41) -/

/-- A state that meets the invariant with `RVALID = 1` is one in which the result of the command in `OP` stands. -/
theorem resultStands_of_rvalid {s : State} {o : Op} (h : s.Inv) (hv : s.rvalid = true) (ho : s.op = some o) :
    ResultStands o s := by
  rcases inv_iff.mp h with ⟨o', h⟩ | ⟨o', h⟩ | h
  · simp [h.rvalid] at hv
  · obtain rfl : o' = o := Option.some.inj (h.op.symm.trans ho)
    exact h
  · rw [h] at hv
    cases hv

/-- The ROM indices a whole command reads: the masked add-back reads all four limbs whatever the data are, the branch only
when it is taken, the borrow chain none (R41). -/
theorem romReads_commandTrace (o : Op) (b : Bool) : romReads (commandTrace o b) =
    match o with
    | .subct => [0, 1, 2, 3]
    | .bchain => []
    | .cmadd => [0, 1, 2, 3]
    | .subbr => if b then [0, 1, 2, 3] else [] := by
  cases o
  case subct => rfl
  case bchain => rfl
  case cmadd => rfl
  case subbr => cases b <;> rfl

/-- The trace of `SUBBR` shows the direction its branch took (R23). -/
theorem br_mem_commandTrace_subbr (b : Bool) : Event.br b ∈ commandTrace .subbr b := by
  cases b <;> decide

/-- Settles O49: the trace is that of a whole command, whose ROM indices `romReads_commandTrace` gives. -/
theorem romAccessPattern : Obligations.RomAccessPattern := by
  intro s o hs hv ho
  obtain ⟨b, ht⟩ := (resultStands_of_rvalid hs hv ho).trace
  rw [ht]
  refine ⟨?_, ?_, ?_⟩
  · rintro (rfl | rfl)
    · exact romReads_commandTrace .subct b
    · exact romReads_commandTrace .cmadd b
  · rintro rfl
    exact romReads_commandTrace .bchain b
  · rintro rfl
    have hbr := br_mem_commandTrace_subbr b
    cases b with
    | true => exact .inl ⟨romReads_commandTrace .subbr true, hbr⟩
    | false => exact .inr ⟨romReads_commandTrace .subbr false, hbr⟩

end Sys2Proof.Machine
end

section
/-! PROOFS. The encoding (30_encoding.md): the two word formats and their decoder (R43, R44, R47, R48, R49), and the request
the block decodes from its ports (R42, R121). -/

namespace Sys2Proof

/-! ## Requests (R43, R44) -/

/-- The word of command `o`. -/
@[simp] theorem encode_instr (o : Op) (x y : Wide) (fin : Bool) :
    encode (o.instr x y fin) = .req (packReq o.bits fin y x) := by
  cases o <;> rfl

/-- The number a request word stands for. -/
theorem toNat_packReq (op : BitVec 2) (fin : Bool) (y x : Wide) :
    (packReq op fin y x).toNat = ((op.toNat * 2 + fin.toNat) * 2 ^ 256 + y.toNat) * 2 ^ 256 + x.toNat := by
  simp only [packReq, Machine.toNat_append_eq_add, BitVec.toNat_ofBool, Nat.pow_one]

/-- R43: the four fields of a request word, put side by side again, are the word. -/
theorem packReq_fields (w : BitVec 515) :
    packReq (w.extractLsb' 513 2) (w.getLsbD 512) (w.extractLsb' 256 256) (w.extractLsb' 0 256) = w := by
  have hw := w.isLt
  have hflag : (w.getLsbD 512).toNat = w.toNat >>> 512 % 2 := by
    rw [BitVec.getLsbD, Nat.toNat_testBit, Nat.shiftRight_eq_div_pow]
  apply BitVec.eq_of_toNat_eq
  simp only [toNat_packReq, BitVec.extractLsb'_toNat, Nat.shiftRight_eq_div_pow, hflag]
  omega

theorem encode_decodeReq (w : BitVec 515) : encode (decodeReq w) = .req w := by
  rw [decodeReq, encode_instr, Machine.Op.bits_ofBits, packReq_fields]

/-! ## Micro-operation codes (R47, R48, R49) and the whole decoder -/

/-- Of the 32 micro-operation codes, each that decodes is the code of what it decodes to. -/
theorem encode_of_decodeUop : ∀ c : BitVec 5, ∀ i ∈ (decodeUop c).toOption, encode i = .uop c := by
  decide

/-- Every instruction has the round trip of its constructor. -/
theorem roundTrip (i : Instr) : Laws.RoundTrip.Statement i := by
  cases i with
  | subct x y fin => exact Laws.RoundTrip.subct x y fin
  | bchain x y fin => exact Laws.RoundTrip.bchain x y fin
  | cmadd x y fin => exact Laws.RoundTrip.cmadd x y fin
  | subbr x y fin => exact Laws.RoundTrip.subbr x y fin
  | sbb i => exact Laws.RoundTrip.sbb i
  | b2m => exact Laws.RoundTrip.b2m
  | and i => exact Laws.RoundTrip.and i
  | adc i => exact Laws.RoundTrip.adc i
  | adcp i => exact Laws.RoundTrip.adcp i
  | br => exact Laws.RoundTrip.br
  | endOp => exact Laws.RoundTrip.endOp

/-- Settles O1. -/
theorem decodeOfEncode : Obligations.DecodeOfEncode :=
  fun i _ => (roundTrip i).1

/-- Settles O2: a request by putting its fields together again, a micro-operation code by its table. -/
theorem encodeOfDecode : Obligations.EncodeOfDecode := by
  intro c i h
  cases c with
  | req w =>
    cases h
    exact encode_decodeReq w
  | uop c =>
    refine encode_of_decodeUop c i ?_
    rw [show decodeUop c = .ok i from h]
    rfl

/-- Settles O3: the codes that are refused are counted out over the 32, and each microprogram is read through. -/
theorem noCommandIsRefused : Obligations.NoCommandIsRefused := by
  refine ⟨fun w => ⟨_, _, _, _, rfl⟩, by decide, fun o => ?_⟩
  cases o <;> decide

/-- Settles O4: each request word is packed from its fields, and decoded by `ofCommand`. -/
theorem decodesWordsFromTheSpec : Obligations.DecodesWordsFromTheSpec := by
  have hsubct : 1#515 <<< 256 = packReq (Op.bits .subct) false 1#256 0#256 := by
    decide +kernel
  have hcmadd : (5#515 <<< 512) + 1#515 = packReq (Op.bits .cmadd) true 0#256 1#256 := by
    decide +kernel
  have hsubbr : (3#515 <<< 513) + (5#515 <<< 256) + 3#515 = packReq (Op.bits .subbr) false 5#256 3#256 := by
    decide +kernel
  refine ⟨?_, ?_, ?_, rfl, rfl, rfl, rfl, rfl, rfl, rfl⟩
  · rw [hsubct]; exact Laws.RoundTrip.ofCommand ..
  · rw [hcmadd]; exact Laws.RoundTrip.ofCommand ..
  · rw [hsubbr]; exact Laws.RoundTrip.ofCommand ..

namespace Machine

/-- Settles O39: the step decodes the request on the ports, and `i` is what it decodes to. -/
theorem stepRunsTheRequest : Obligations.StepRunsTheRequest := by
  intro s i hr hb hv h
  cases h
  rw [step_of_request hr hb hv, decodeReq_packReq, exec_instr]

end Machine

end Sys2Proof
end

section
/-! PROOFS. Runs of a program (30_encoding.md R51, 70_reset_and_hazards.md R129): a command from its issue to its result
under a quiet host, that any other host but one that resets makes no difference, and what every move of a run keeps. -/

namespace Sys2Proof.Machine

/-! ## A command from its issue to its result (R66, R68, R74, R79, R87) -/

section
variable (o : Op) (x y : Quad Limb) (fin : Bool)

/-- The block right after command `o` was issued, its host quiet (R121). -/
def issued : State :=
  { State.reset with
    op := some o, fin := some fin, x := x.map some, y := y.map some, bw := some false, cy := some false, busy := true }

/-- The block at place 4 of a command that begins with the borrow chain, `borrow` being the final borrow (R66). -/
def chained (borrow : Bool) : State :=
  { issued o x y fin with
    z := (bchain x y).1.map some, bw := some borrow, upc := 4#4, trace := [.sbb 0, .sbb 1, .sbb 2, .sbb 3] }

/-- The block with the result of command `o` standing, its host quiet (R63, R98). -/
def finished : State :=
  { issued o x y fin with
    z := (commandResult o x y fin).1.map some, fout := some (commandResult o x y fin).2
    bw := none, cy := none, busy := false, rvalid := true, trace := commandTrace o (bchain x y).2 }

theorem finished_hostRead : (finished o x y fin).hostRead = some (commandResult o x y fin) := rfl

theorem steps_issued_chained (ho : o ≠ .cmadd) :
    steps 4 (issued o x y fin) = .next (chained o x y fin (bchain x y).2) := by
  cases o with
  | cmadd => exact absurd rfl ho
  | subct => rfl
  | bchain => rfl
  | subbr => rfl

/-- Running a command step by step gives its result at the function level. `SUBBR` goes on from its chain by its borrow. -/
theorem steps_issued_finished :
    steps (commandSteps o (bchain x y).2) (issued o x y fin) = .next (finished o x y fin) := by
  cases o with
  | subct => exact (steps_add 4 10 (steps_issued_chained .subct x y fin nofun)).trans rfl
  | bchain => exact (steps_add 4 1 (steps_issued_chained .bchain x y fin nofun)).trans rfl
  | cmadd => rfl
  | subbr =>
    have hchain := steps_issued_chained .subbr x y fin nofun
    simp only [finished, commandResult, subBr, subBrWith]
    generalize (bchain x y).2 = borrow at hchain ⊢
    cases borrow with
    | false => exact (steps_add 4 2 hchain).trans rfl
    | true => exact (steps_add 4 6 hchain).trans rfl

/-- The final borrow says which operand is the smaller one (R67). -/
theorem borrow_eq_decide_lt : (bchain x y).2 = decide (val x < val y) := by
  have h := bchain_loses_nothing x y
  have hx := val_lt x
  have hd := val_lt (bchain x y).1
  cases hb : (bchain x y).2 with
  | false =>
    rw [hb, Bool.toNat_false] at h
    exact (decide_eq_false (by omega)).symm
  | true =>
    rw [hb, Bool.toNat_true] at h
    exact (decide_eq_true (by omega)).symm

end

/-! ## The host of a command in flight (R122) -/

section
variable {s t : State} {p : PortsIn} {n : Nat}

/-- Every step uses up one entry of what the host drives. -/
theorem step_inputs (h : step s = .next t) : t.inputs = s.inputs.tail := by
  rcases step_cases h with ⟨-, rfl⟩ | ⟨-, -, o, i, -, hl, he⟩ | ⟨-, hb, -, he⟩ | ⟨-, -, -, rfl⟩
  · rfl
  · by_cases hend : i = .endOp
    case pos =>
      subst hend
      exact (execEnd_keepsOperands he).inputs
    case neg => exact (exec_keeps (isMicroOp_of_lookup hl) hend he).1.inputs
  · rw [issue_of_idle _ _ _ _ s.tick hb] at he
    cases he
    rfl
  · rfl

theorem steps_succ_inv (h : steps (n + 1) s = .next t) : ∃ u, step s = .next u ∧ steps n u = .next t := by
  cases hs : step s with
  | next u => exact ⟨u, rfl, by rwa [steps_succ n hs] at h⟩
  | fault f => simp [steps, hs] at h
  | refused r => simp [steps, hs] at h

theorem ports_of_quiet (hq : s.inputs = []) : s.ports = PortsIn.quiet := by
  rw [State.ports, hq, List.headD_nil]

theorem tick_of_quiet (hq : s.inputs = []) : s.tick = s := by
  rw [State.tick, hq, List.tail_nil, ← hq]

/-- An idle block with a quiet host stays as it is. -/
theorem steps_of_idle (hb : s.busy = false) (hq : s.inputs = []) : steps n s = .next s := by
  have hports := ports_of_quiet hq
  have hstep : step s = .next s := by
    rw [step_of_idle (by rw [hports]; rfl) hb (by rw [hports]; rfl), tick_of_quiet hq]
  induction n with
  | zero => rfl
  | succ n ih => rw [steps_succ n hstep, ih]

/-- While a command is in flight, whatever the host drives but a reset has the effect of driving nothing. -/
theorem step_of_busy_eq_quiet (hb : s.busy = true) (hr : p.rst = false) (hq : s.inputs = []) :
    step { s with inputs := [p] } = step s := by
  have hmove : nextMove { s with inputs := [p] } = nextMove s := by
    simp [nextMove, State.ports, PortsIn.quiet, hb, hr, hq]
  have htick : State.tick { s with inputs := [p] } = s.tick := by
    simp [State.tick, hq]
  simp only [step, hmove, htick]

/-- A block that meets the invariant and that `n` steps under a quiet host take to `t`. -/
structure EndsAs (t : State) (n : Nat) (s : State) : Prop where
  inv : s.Inv
  quiet : s.inputs = []
  steps : steps n s = .next t

theorem EndsAs.eq_of_idle (h : EndsAs t n s) (hb : s.busy = false) : s = t :=
  Host.Outcome.next.inj ((steps_of_idle hb h.quiet).symm.trans h.steps)

/-- While a result can be read no command is in flight. -/
theorem EndsAs.eq_of_hostRead {r : Quad Limb × Bool} (h : EndsAs t n s) (hr : s.hostRead = some r) : s = t := by
  have hv := (hostRead_eq_some_iff.mp hr).1
  have hbv := not_busy_and_rvalid_of_inv h.inv
  rw [hv, Bool.and_true] at hbv
  exact h.eq_of_idle hbv

/-- A step under any host that does not reset is one of the `n`. -/
theorem EndsAs.under (h : EndsAs t n s) (ht : t.busy = false) (hb : s.busy = true) (hr : p.rst = false) :
    ∃ k u, n = k + 1 ∧ s.under p = some u ∧ EndsAs t k u := by
  cases n with
  | zero =>
    cases h.steps
    simp [ht] at hb
  | succ k =>
    obtain ⟨u, hu, hk⟩ := steps_succ_inv h.steps
    refine ⟨k, u, rfl, State.under_eq_some.mpr ?_, invariantKeptByEveryStep s u h.inv hu, ?_, hk⟩
    · rw [step_of_busy_eq_quiet hb hr h.quiet, hu]
    · rw [step_inputs hu, h.quiet, List.tail_nil]

end

/-! ## The commands of a program at the function level (R51, R98) -/

/-- What command `c` leaves in `(Z, FOUT)` when it is requested by `p`. -/
def Command.resultOn (c : Command) (p : PortsIn) : Quad Limb × Bool :=
  commandResult c.op (ofPort p.reqX) (ofPort p.reqY) p.reqFin

/-- The trace of command `c` when it is requested by `p`. -/
def Command.traceOn (c : Command) (p : PortsIn) : List Event :=
  commandTrace c.op (decide (val (ofPort p.reqX) < val (ofPort p.reqY)))

/-- The block with the result of command `c` standing that was requested by `p`. -/
def Command.finishedOn (c : Command) (p : PortsIn) : State :=
  finished c.op (ofPort p.reqX) (ofPort p.reqY) p.reqFin

section
variable {c : Command} {p : PortsIn} {v : Vars} {s : State} {prog rest : Program}
  {out : List (Quad Limb × Bool) × List (List Event)}

theorem Command.finishedOn_hostRead : (c.finishedOn p).hostRead = some (c.resultOn p) := rfl

theorem Command.finishedOn_trace : (c.finishedOn p).trace = c.traceOn p :=
  congrArg (commandTrace c.op) (borrow_eq_decide_lt _ _)

/-- A request taken by an idle block leads to the result of its command (R98, R121). -/
theorem Command.endsAs_of_request (hp : c.request v = some p) (hb : s.busy = false) :
    ∃ t n, s.under p = some t ∧ EndsAs (c.finishedOn p) n t := by
  obtain ⟨x, y, fin, rfl, -⟩ := Command.request_eq_some hp
  have hissue (u : State) (hu : u.busy = false) (hq : u.inputs = []) :
      issue c.op x y fin u = .next (issued c.op (ofPort x) (ofPort y) fin) := by
    rw [issue_of_idle _ _ _ _ _ hu, hq]
    rfl
  refine ⟨issued c.op (ofPort x) (ofPort y) fin, _, State.under_eq_some.mpr ?_,
    (inFlight_of_issue (s := State.reset) rfl (hissue _ rfl rfl)).inv, rfl, steps_issued_finished ..⟩
  refine (step_of_request (s := { s with inputs := [PortsIn.request c.op x y fin] }) rfl hb rfl).trans ?_
  exact (congrArg (issue · x y fin _) (Op.ofBits_bits c.op)).trans (hissue _ hb rfl)

theorem programOutcome_cons (hp : c.request v = some p) : programOutcome (c :: rest) v =
    (programOutcome rest (c.receive v (c.resultOn p))).map fun out => (c.resultOn p :: out.1, c.traceOn p :: out.2) := by
  rw [programOutcome, hp]
  rfl

/-- A program with an outcome: its first command has a request, and the rest has an outcome. -/
theorem programOutcome_cons_eq_some (h : programOutcome (c :: rest) v = some out) :
    ∃ p out', c.request v = some p ∧ programOutcome rest (c.receive v (c.resultOn p)) = some out' ∧
      out = (c.resultOn p :: out'.1, c.traceOn p :: out'.2) := by
  obtain ⟨p, hp, -⟩ := Option.bind_eq_some_iff.mp h
  rw [programOutcome_cons hp] at h
  obtain ⟨out', hout, rfl⟩ := Option.map_eq_some_iff.mp h
  exact ⟨p, out', hp, hout, rfl⟩

/-- The outcome of a program has the result of each of its commands. -/
theorem length_of_programOutcome (h : programOutcome prog v = some out) : out.1.length = prog.length := by
  induction prog generalizing v out with
  | nil => cases h; rfl
  | cons c rest ih =>
    obtain ⟨p, out', -, hout, rfl⟩ := programOutcome_cons_eq_some h
    rw [List.length_cons, List.length_cons, ih hout]

/-- Only the trace of `SUBBR` looks at its operands (R97). -/
theorem commandTrace_of_ne_subbr {o : Op} (h : o ≠ .subbr) (b : Bool) : commandTrace o b = commandTrace o false := by
  cases o with
  | subbr => exact absurd rfl h
  | subct => rfl
  | bchain => rfl
  | cmadd => rfl

/-- The traces of a program without `SUBBR` depend on its command codes alone. -/
theorem traces_of_programOutcome (h : programOutcome prog v = some out) (hs : ∀ c ∈ prog, c.op ≠ .subbr) :
    out.2 = prog.map fun c => commandTrace c.op false := by
  induction prog generalizing v out with
  | nil => cases h; rfl
  | cons c rest ih =>
    obtain ⟨p, out', -, hout, rfl⟩ := programOutcome_cons_eq_some h
    obtain ⟨hc, hrest⟩ := List.forall_mem_cons.mp hs
    rw [List.map_cons, ih hout hrest, Command.traceOn, commandTrace_of_ne_subbr hc]

end

/-! ## The moves of a run (R129) -/

section
variable {prog : Program} {v : Vars} {r r' : Run} {m : RunMove} {c : Command}

/-- What every move of a run of `prog` from the variables `v` keeps: the outcome of the program is what was read so far and
then the outcome of the commands not read yet; between two commands the block is idle with the last result standing; a
command issued is on its way to its result. -/
structure Run.Inv (prog : Program) (v : Vars) (r : Run) : Prop where
  outcome : programOutcome prog v =
    (programOutcome (r.pending.toList ++ r.todo) r.vars).map fun out => (r.reads ++ out.1, r.traces ++ out.2)
  idle : r.pending = none → r.block.busy = false
  last : r.pending = none → ∀ w, r.reads.getLast? = some w → r.block.hostRead = some w
  issued : ∀ c, r.pending = some c → ∃ p n, c.request r.vars = some p ∧ EndsAs (c.finishedOn p) n r.block

theorem Run.inv_start {s : State} (hb : s.busy = false) : Run.Inv prog v (Run.start prog v s) where
  outcome := by simp
  idle _ := hb
  last _ _ h := nomatch h
  issued _ h := nomatch h

/-- Each move keeps it: an issue by `Command.endsAs_of_request`, a step by `EndsAs.under`, a read because a result can be
read at the end of the command only. -/
theorem Run.Inv.move (h : Run.Inv prog v r) (hm : r.move m = some r') : Run.Inv prog v r' := by
  rcases Run.move_cases hm with ⟨c, rest, p, t, -, hpend, htodo, hb, hp, ht, rfl⟩ | ⟨p, t, -, hb, hr, ht, rfl⟩ |
    ⟨c, w, -, hpend, hw, rfl⟩
  · obtain ⟨t', n, ht', he⟩ := Command.endsAs_of_request hp hb
    obtain rfl : t' = t := Option.some.inj (ht'.symm.trans ht)
    refine ⟨?_, nofun, nofun, ?_⟩
    · simpa [hpend, htodo] using h.outcome
    · rintro _ ⟨⟩
      exact ⟨p, n, hp, he⟩
  · refine ⟨h.outcome, fun hpend => ?_, fun hpend => ?_, fun c hc => ?_⟩
    · simp [h.idle hpend] at hb
    · simp [h.idle hpend] at hb
    · obtain ⟨q, n, hq, he⟩ := h.issued c hc
      obtain ⟨k, t', -, ht', he⟩ := he.under rfl hb hr
      obtain rfl : t' = t := Option.some.inj (ht'.symm.trans ht)
      exact ⟨q, k, hq, he⟩
  · obtain ⟨p, n, hp, he⟩ := h.issued c hpend
    have hblock := he.eq_of_hostRead hw
    obtain rfl : c.resultOn p = w := by
      rw [hblock] at hw
      exact Option.some.inj hw
    refine ⟨?_, fun _ => ?_, fun _ w' hw' => ?_, nofun⟩
    · rw [h.outcome, hpend, Option.toList_some, List.singleton_append, programOutcome_cons hp, Option.map_map]
      simp [hblock, Command.finishedOn_trace, Function.comp_def]
    · rw [hblock]
      rfl
    · rw [List.getLast?_concat] at hw'
      rw [hw, hw']

theorem Run.Inv.moves {ms : List RunMove} (h : Run.Inv prog v r) (hm : Run.moves ms r = some r') : Run.Inv prog v r' :=
  Run.moves_induction hm h fun _ _ _ => Run.Inv.move

theorem Run.move_issue {rest : Program} {p : PortsIn} {t : State} (hpend : r.pending = none) (htodo : r.todo = c :: rest)
    (hb : r.block.busy = false) (hp : c.request r.vars = some p) (ht : r.block.under p = some t) :
    r.move .issue = some { r with block := t, todo := rest, pending := some c } := by
  simp [Run.move, Run.issueNext, hpend, htodo, hb, hp, ht]

theorem Run.move_step {p : PortsIn} {t : State} (hb : r.block.busy = true) (hr : p.rst = false)
    (ht : r.block.under p = some t) : r.move (.step p) = some { r with block := t } := by
  simp [Run.move, Run.blockStep, hb, hr, ht]

theorem Run.move_read {w : Quad Limb × Bool} (hpend : r.pending = some c) (hw : r.block.hostRead = some w) :
    r.move .read = some { r with
      vars := c.receive r.vars w, pending := none, reads := r.reads ++ [w], traces := r.traces ++ [r.block.trace] } := by
  simp [Run.move, Run.readResult, hpend, hw]

/-- A command in flight can be taken to its end and read, the host driving nothing meanwhile. -/
theorem Run.exists_read {r : Run} {t : State} {n : Nat} {w : Quad Limb × Bool} (hc : r.pending = some c)
    (he : EndsAs t n r.block) (ht : t.busy = false) (hw : t.hostRead = some w) :
    ∃ ms r', Run.moves ms r = some r' ∧ r'.pending = none ∧ r'.todo = r.todo := by
  cases hb : r.block.busy with
  | false =>
    rw [← he.eq_of_idle hb] at hw
    exact ⟨[.read], _, congrArg (Option.bind · (Run.moves [])) (Run.move_read hc hw), rfl, rfl⟩
  | true =>
    obtain ⟨k, u, rfl, hu, he'⟩ := he.under (p := PortsIn.quiet) ht hb rfl
    obtain ⟨ms, r', hms, hr'⟩ := Run.exists_read (r := { r with block := u }) hc he' ht hw
    exact ⟨.step PortsIn.quiet :: ms, r', by rwa [Run.moves_cons, Run.move_step hb rfl hu], hr'⟩
termination_by n

/-- A run can go on to where no command is in flight or waits to be read. -/
theorem Run.Inv.exists_idle (h : Run.Inv prog v r) :
    ∃ ms r', Run.moves ms r = some r' ∧ r'.pending = none ∧ r'.todo = r.todo := by
  cases hc : r.pending with
  | none => exact ⟨[], r, rfl, hc, rfl⟩
  | some c =>
    obtain ⟨p, n, -, he⟩ := h.issued c hc
    exact Run.exists_read hc he rfl Command.finishedOn_hostRead

/-- A run of a program whose operands have values can go on to its end, one command after the other. -/
theorem Run.Inv.exists_over (h : Run.Inv prog v r) (hv : programOutcome prog v ≠ none) :
    ∃ ms r', Run.moves ms r = some r' ∧ r'.over = true := by
  obtain ⟨out, hout⟩ := Option.ne_none_iff_exists'.mp hv
  induction htodo : r.todo generalizing r with
  | nil =>
    obtain ⟨ms, r', hms, hpend, htodo'⟩ := h.exists_idle
    exact ⟨ms, r', hms, (Run.over_iff r').mpr ⟨htodo'.trans htodo, hpend⟩⟩
  | cons c rest ih =>
    obtain ⟨ms, u, hms, hpend, htodo'⟩ := h.exists_idle
    have hu := h.moves hms
    rw [htodo] at htodo'
    have hnext := hu.outcome
    rw [hpend, htodo', hout] at hnext
    obtain ⟨out', hout', -⟩ := Option.map_eq_some_iff.mp hnext.symm
    obtain ⟨p, -, hp, -⟩ := programOutcome_cons_eq_some hout'
    obtain ⟨t, -, ht, -⟩ := Command.endsAs_of_request hp (hu.idle hpend)
    have hissue := Run.move_issue hpend htodo' (hu.idle hpend) hp ht
    obtain ⟨ms', r', hms', hover⟩ := ih (hu.move hissue) rfl
    refine ⟨ms ++ .issue :: ms', r', ?_, hover⟩
    rw [Run.moves_append, hms, Option.bind_some, Run.moves_cons, hissue, Option.bind_some, hms']

end

/-- Settles O60: by what every move keeps (`Run.Inv.move`). -/
theorem runOfAProgram : Obligations.RunOfAProgram := by
  intro prog v s ms r hb hms
  have h : Run.Inv prog v r := (Run.inv_start hb).moves hms
  refine ⟨fun hbusy => ?_, fun hover => ?_, h.exists_over⟩
  · by_contra hover
    obtain ⟨-, hpend⟩ := (Run.over_iff r).mp (by simpa using hover)
    simp [h.idle hpend] at hbusy
  · obtain ⟨htodo, hpend⟩ := (Run.over_iff r).mp hover
    have hout : programOutcome prog v = some r.outcome := by
      rw [h.outcome, hpend, htodo]
      simp [programOutcome, Run.outcome]
    refine ⟨hout, traces_of_programOutcome hout, fun hne => ?_⟩
    have hlen : r.reads.length = prog.length := length_of_programOutcome hout
    have hreads : r.reads ≠ [] := by rwa [← List.length_pos_iff, hlen, List.length_pos_iff]
    obtain ⟨w, hw⟩ := Option.ne_none_iff_exists'.mp (mt List.getLast?_eq_none_iff.mp hreads)
    have hlast := h.last hpend w hw
    exact ⟨h.idle hpend, (hostRead_eq_some_iff.mp hlast).1, hlast.trans hw.symm, noStepEnabled_of_idle (h.idle hpend)⟩

end Sys2Proof.Machine
end

section
/-! PROOFS. The three functions of one limb (40_limb_primitives.md R54, R55, R56): what `sbb_loses_nothing` and
`adc_loses_nothing` give for the result and the flag, and the mask of a flag. -/

namespace Sys2Proof.Machine

/-- A 64-bit difference in 128-bit two's complement: from bit 64 on every bit is its sign. -/
theorem getLsbD_ofInt_eq_sign {t : Int} (hlo : -2 ^ 64 ≤ t) (hhi : t < 2 ^ 64) {k : Nat} (hk : k = 64 ∨ k = 127) :
    (BitVec.ofInt 128 t).getLsbD k = decide (t < 0) := by
  rw [BitVec.getLsbD, Nat.testBit_eq_decide_div_mod_eq, BitVec.toNat_ofInt, decide_eq_decide]
  rcases hk with rfl | rfl <;> omega

/-- Settles O9: the identity is `sbb_loses_nothing`; the rest follows from it by the ranges of the result and the borrow. -/
theorem subtractWithBorrowExact : Obligations.SubtractWithBorrowExact := by
  intro a b bin t
  have hloss := sbb_loses_nothing a b bin
  have ha := a.isLt
  have hb := b.isLt
  have hr := (sbb a b bin).1.isLt
  have hbin := Bool.toNat_le bin
  have hneg : (sbb a b bin).2 = true ↔ t < 0 := decide_eq_true_iff
  have hid : t = (sbb a b bin).1.toNat - (sbb a b bin).2.toNat * 2 ^ 64 := by omega
  have hsign {k : Nat} (hk : k = 64 ∨ k = 127) : (sbb a b bin).2 = (BitVec.ofInt 128 t).getLsbD k :=
    (getLsbD_ofInt_eq_sign (by omega) (by omega) hk).symm
  refine ⟨by omega, hneg, hid, hneg.trans (by omega), ?_, hsign (.inl rfl), hsign (.inr rfl)⟩
  apply BitVec.eq_of_toNat_eq
  rw [BitVec.extractLsb'_toNat, BitVec.toNat_ofInt, Nat.shiftRight_zero]
  omega

/-- Settles O10: the identity is `adc_loses_nothing`; the rest follows from it by the range of the result. -/
theorem addWithCarryExact : Obligations.AddWithCarryExact := by
  intro a b cin t
  have hloss : t = _ := adc_loses_nothing a b cin
  have hr := (adc a b cin).1.isLt
  exact ⟨by omega, decide_eq_true_iff, by omega, hloss⟩

/-- Settles O11: the two masks are the unit and the zero of the bitwise AND. -/
theorem maskOfFlag : Obligations.MaskOfFlag := by
  refine ⟨b2m_true, b2m_false, fun f => ?_, fun m f => ?_⟩
  · cases f <;> rfl
  · cases f with
    | false => simp
    | true =>
      rw [b2m_true, BitVec.and_allOnes]
      simp

end Sys2Proof.Machine
end

section
/-! PROOFS. The micro-operations one by one (40_limb_primitives.md R58 to R63): the code of each, the places the
microprograms have it, and its effect where the registers it reads hold values. -/

namespace Sys2Proof.Machine

variable {o : Op} {u : BitVec 4} {s : State} {i : LimbIx} {a b v : Limb} {c f : Bool}

/-! ## Codes and places (R47, R48) -/

/-- The code written with the limb index as a number is the code `encode` packs. -/
theorem decode_append_ofNat (kind : BitVec 3) (i : LimbIx) :
    decode (.uop (kind ++ BitVec.ofNat 2 i.val)) = decode (.uop (packUop kind i)) := by
  fin_cases i <;> rfl

theorem lookup_eq_sbb_iff : lookup o u = some (.sbb i) ↔ o ≠ .cmadd ∧ u.toNat = i.val := by
  rw [lookup_eq_microOps]
  cases o <;> revert u i <;> decide

theorem lookup_eq_b2m_iff : lookup o u = some .b2m ↔ (o = .subct ∧ u = 4#4) ∨ (o = .cmadd ∧ u = 0#4) := by
  rw [lookup_eq_microOps]
  cases o <;> revert u <;> decide

theorem lookup_eq_and_iff : lookup o u = some (.and i) ↔
    (o = .subct ∧ u.toNat = 5 + i.val) ∨ (o = .cmadd ∧ u.toNat = 1 + i.val) := by
  rw [lookup_eq_microOps]
  cases o <;> revert u i <;> decide

theorem lookup_eq_adc_iff : lookup o u = some (.adc i) ↔
    (o = .subct ∧ u.toNat = 9 + i.val) ∨ (o = .cmadd ∧ u.toNat = 5 + i.val) := by
  rw [lookup_eq_microOps]
  cases o <;> revert u i <;> decide

theorem lookup_eq_adcp_iff : lookup o u = some (.adcp i) ↔ o = .subbr ∧ u.toNat = 5 + i.val := by
  rw [lookup_eq_microOps]
  cases o <;> revert u i <;> decide

theorem microprogram_length (o : Op) : (microprogram o).length = endPlace o + 1 := by
  cases o <;> rfl

/-! ## Effects (R58 to R63) -/

theorem exec_sbb_of_values (hx : s.x.get i = some a) (hy : s.y.get i = some b) (hbw : s.bw = some c) :
    exec (.sbb i) s = .next
      (State.advance { s with z := s.z.set i (some (sbb a b c).1), bw := some (sbb a b c).2 } (.sbb i)) := by
  simp only [exec, execSbb, hx, hy, hbw, readReg_some]

/-- The flag is `FIN` under `CMADD` and `BW` otherwise. -/
theorem exec_b2m_of_values (ho : s.op = some o) (hfin : o = .cmadd → s.fin = some f)
    (hbw : o ≠ .cmadd → s.bw = some f) :
    exec .b2m s = .next (State.advance { s with mask := some (b2m f) } .b2m) := by
  have hf : (if o = .cmadd then s.fin else s.bw) = some f := by
    split
    case isTrue h => exact hfin h
    case isFalse h => exact hbw h
  simp only [exec, execB2m, ho, hf, readReg_some]

theorem exec_and_of_values (hk : s.mask = some v) :
    exec (.and i) s = .next (State.advance { s with m := s.m.set i (some (memRead i &&& v)) } (.and i)) := by
  simp only [exec, execAnd, hk, readReg_some]

/-- The first operand is the limb of `X` under `CMADD` and that of `Z` otherwise. -/
theorem exec_adc_of_values (ho : s.op = some o) (hx : o = .cmadd → s.x.get i = some a)
    (hz : o ≠ .cmadd → s.z.get i = some a) (hm : s.m.get i = some b) (hcy : s.cy = some c) :
    exec (.adc i) s = .next
      (State.advance { s with z := s.z.set i (some (adc a b c).1), cy := some (adc a b c).2 } (.adc i)) := by
  have ha : (if o = .cmadd then s.x.get i else s.z.get i) = some a := by
    split
    case isTrue h => exact hx h
    case isFalse h => exact hz h
  simp only [exec, execAdc, ho, ha, hm, hcy, readReg_some]

theorem exec_adcp_of_values (hz : s.z.get i = some a) (hcy : s.cy = some c) :
    exec (.adcp i) s = .next (State.advance
      { s with z := s.z.set i (some (adc a (memRead i) c).1), cy := some (adc a (memRead i) c).2 } (.adcp i)) := by
  simp only [exec, execAdcp, hz, hcy, readReg_some]

/-- The flag shown is `BW` under `BCHAIN` and 0 otherwise. -/
theorem exec_endOp_of_values (ho : s.op = some o) (hbw : o = .bchain → s.bw = some f) (hf : o ≠ .bchain → f = false) :
    exec .endOp s = .next (s.finish f) := by
  simp only [exec, execEnd, ho, readReg_some]
  split
  case isTrue h => rw [hbw h, readReg_some]
  case isFalse h => rw [hf h]

/-! ## The statements -/

/-- Settles O27: that `r` and `bout` are those of the identity is `sbb_loses_nothing`. -/
theorem subtractLimbStep : Obligations.SubtractLimbStep := by
  refine ⟨fun i => ⟨(decode_append_ofNat _ i).trans (roundTrip (.sbb i)).1, fun _ _ => lookup_eq_sbb_iff⟩,
    fun i s a b bin hx hy hbw => ?_⟩
  have hloss := sbb_loses_nothing a b bin
  exact ⟨_, _, by omega, exec_sbb_of_values hx hy hbw⟩

/-- Settles O28. -/
theorem maskStep : Obligations.MaskStep := by
  refine ⟨⟨(roundTrip .b2m).1, fun _ _ => lookup_eq_b2m_iff⟩, fun s o f ho hfin hbw => ?_⟩
  have hmask : b2m f = if f then 0xFFFFFFFFFFFFFFFF#64 else 0#64 := by cases f <;> rfl
  rw [exec_b2m_of_values ho hfin hbw, hmask]
  rfl

/-- Settles O29. -/
theorem maskLimbStep : Obligations.MaskLimbStep :=
  ⟨fun i => ⟨(decode_append_ofNat _ i).trans (roundTrip (.and i)).1, rfl, fun _ _ => lookup_eq_and_iff⟩,
    fun _ _ _ hk => exec_and_of_values hk⟩

/-- Settles O30: that `r` and `cout` are those of the identity is `adc_loses_nothing`. -/
theorem addMaskedLimbStep : Obligations.AddMaskedLimbStep :=
  ⟨fun i => ⟨(decode_append_ofNat _ i).trans (roundTrip (.adc i)).1, fun _ _ => lookup_eq_adc_iff⟩,
    fun _ _ _ a b cin ho hx hz hm hcy => ⟨_, _, adc_loses_nothing a b cin, exec_adc_of_values ho hx hz hm hcy⟩⟩

/-- Settles O31: that `r` and `cout` are those of the identity is `adc_loses_nothing`. -/
theorem addModulusLimbStep : Obligations.AddModulusLimbStep :=
  ⟨fun i => ⟨(decode_append_ofNat _ i).trans (roundTrip (.adcp i)).1, rfl, fun _ _ => lookup_eq_adcp_iff⟩,
    fun i _ a cin hz hcy => ⟨_, _, adc_loses_nothing a (memRead i) cin, exec_adcp_of_values hz hcy⟩⟩

/-- Settles O33: `END` is the last entry of each microprogram by `lookup_eq_endOp_iff`. -/
theorem endStep : Obligations.EndStep := by
  refine ⟨⟨(roundTrip .endOp).1, fun o u => ?_⟩, fun s o f ho hbw hf => exec_endOp_of_values ho hbw hf⟩
  rw [lookup_eq_endOp_iff, microprogram_length, Nat.add_right_cancel_iff]

end Sys2Proof.Machine
end

section
/-! PROOFS. A step of a command in flight (40_limb_primitives.md R57, R65): the place has a micro-operation, the registers it
reads hold values, and but for `BR` what it does to control depends on no value. -/

namespace Sys2Proof.Machine

variable {o : Op} {u : BitVec 4} {s t : State} {i : Instr}

/-! ## No step stops (R57) -/

/-- Settles O38: the table's entry, decoded, is what `lookup` gives. -/
theorem stepRunsTheMicroOperation : Obligations.StepRunsTheMicroOperation := by
  intro s o c i hr hb ho hc hd
  refine step_of_busy hr hb ho ?_
  rw [lookup, hc, Option.bind_some, show decodeUop c = .ok i from hd]
  rfl

/-- A command has a micro-operation at every place up to that of `END`. -/
theorem exists_lookup_of_le (h : u.toNat ≤ endPlace o) : ∃ i, lookup o u = some i := by
  have hlt : u.toNat < (microOps o).length := by rw [microOps_length]; omega
  exact ⟨_, (lookup_eq_microOps o u).trans (List.getElem?_eq_getElem hlt)⟩

/-- A limb holds a value once its own place is passed. -/
theorem isSome_of_filledUpTo {α : Type} {q : Quad (Option α)} {first done : Nat} {k : LimbIx}
    (h : filledUpTo q first done = true) (hk : first + k.val < done) : (q.get k).isSome = true := by
  rw [filledUpTo_iff.mp h k, decide_eq_true hk]

/-- R20: at its place, each micro-operation finds values in the registers it reads. -/
theorem InFlight.holds_operandRegs (h : InFlight o s) (hl : lookup o s.upc = some i) :
    ∀ r ∈ operandRegs i s, s.holds r = true := by
  have hi := isMicroOp_of_lookup hl
  have hx := (Quad.values_isSome_iff s.x).mp h.x
  have hy := (Quad.values_isSome_iff s.y).mp h.y
  have hop : s.op.isSome = true := by rw [h.op, Option.isSome_some]
  cases i with
  | subct => cases hi
  | bchain => cases hi
  | cmadd => cases hi
  | subbr => cases hi
  | sbb k => simp [operandRegs, State.holds, hx k, hy k, h.bw]
  | b2m =>
    simp only [operandRegs, List.forall_mem_cons]
    refine ⟨hop, ?_, nofun⟩
    split
    · exact h.fin
    · exact h.bw
  | and k =>
    obtain ⟨hplace, -⟩ := place_of_and hl
    have hmask : s.mask.isSome = true := by rw [h.progress.mask, decide_eq_true (by omega)]
    simp [operandRegs, State.holds, hmask]
  | adc k =>
    obtain ⟨-, hplace⟩ := place_of_adc hl
    have hm : (s.m.get k).isSome = true := isSome_of_filledUpTo h.progress.m (by omega)
    simp only [operandRegs, List.forall_mem_cons]
    refine ⟨hop, ?_, hm, h.cy, nofun⟩
    rcases lookup_eq_adc_iff.mp hl with ⟨rfl, hu⟩ | ⟨rfl, -⟩
    · rw [if_neg (by simp [h.op])]
      exact isSome_of_filledUpTo h.progress.z (by simp only [zPlace]; omega)
    · rw [if_pos h.op]
      exact hx k
  | adcp k =>
    obtain ⟨hplace, -⟩ := place_of_adcp hl
    have hz : (s.z.get k).isSome = true := isSome_of_filledUpTo h.progress.z (by omega)
    simp [operandRegs, State.holds, hz, h.cy]
  | br => simp [operandRegs, State.holds, h.bw]
  | endOp =>
    simp only [operandRegs]
    split
    · simp [State.holds, hop, h.bw]
    · simp [State.holds, hop]

/-- A command in flight has a next step unless the host resets. -/
theorem InFlight.exists_step (h : InFlight o s) (hr : s.ports.rst = false) : ∃ t, step s = .next t := by
  obtain ⟨i, hl⟩ := exists_lookup_of_le h.progress.le
  obtain ⟨hrun, -⟩ := exec_stopsExactlyOn_operandRegs (isMicroOp_of_lookup hl) s.tick
  rw [step_of_busy hr h.busy h.op hl]
  exact hrun (h.tick.holds_operandRegs hl)

/-- Settles O46: a reset, an issue and a hold always answer a next state; a command in flight by `InFlight.exists_step`. -/
theorem stepNeverStops : Obligations.StepNeverStops := by
  intro s hs
  cases hr : s.ports.rst with
  | true => exact ⟨_, step_of_reset hr⟩
  | false =>
    cases hb : s.busy with
    | true =>
      obtain ⟨o, h⟩ := inFlight_of_busy hs hb
      exact h.exists_step hr
    | false =>
      cases hv : s.ports.reqValid with
      | true => exact ⟨_, (step_of_request hr hb hv).trans (issue_of_idle _ _ _ _ s.tick hb)⟩
      | false => exact ⟨_, step_of_idle hr hb hv⟩

/-! ## What a micro-operation does to control (R65) -/

/-- The registers a micro-operation gives a value (R58 to R62). -/
def writtenRegs : Instr → List Reg
  | .subct _ _ _ => []
  | .bchain _ _ _ => []
  | .cmadd _ _ _ => []
  | .subbr _ _ _ => []
  | .sbb k => [.z k, .bw]
  | .b2m => [.mask]
  | .and k => [.m k]
  | .adc k => [.z k, .cy]
  | .adcp k => [.z k, .cy]
  | .br => []
  | .endOp => []

/-- The registers that lose their value at the end of a command (R63). -/
def Reg.isTransient : Reg → Bool
  | .x _ => false
  | .y _ => false
  | .z _ => false
  | .m _ => true
  | .mask => true
  | .bw => true
  | .cy => true
  | .op => false
  | .fin => false

/-- Whether register `r` holds a value after micro-operation `i`, from whether it does before. -/
def heldAfter (i : Instr) (r : Reg) (before : Bool) : Bool :=
  if i = .endOp then before && !r.isTransient else before || decide (r ∈ writtenRegs i)

/-- All that a micro-operation but `BR` does to `OP`, `UPC`, the trace and to which registers hold values; nothing in it is a
value of a data register (R65). -/
structure ControlEffect (i : Instr) (s t : State) : Prop where
  op : t.op = s.op
  upc : t.upc = if i = .endOp then 0#4 else s.upc + 1#4
  trace : t.trace = s.trace ++ (takenEvent i).toList
  holds : ∀ r, t.holds r = heldAfter i r (s.holds r)

/-! Which registers hold values after the writes of the micro-operations. -/

section
variable {k : LimbIx} {v : Limb} {c : Bool} (r : Reg)

theorem isSome_get_set {α : Type} (q : Quad (Option α)) (k j : LimbIx) (a : α) :
    ((q.set k (some a)).get j).isSome = ((q.get j).isSome || decide (j = k)) := by
  rw [Quad.get_set]
  split
  case isTrue h => simp [h]
  case isFalse h => simp [h]

theorem holds_set_z_bw : State.holds { s with z := s.z.set k (some v), bw := some c } r =
    (s.holds r || decide (r ∈ [.z k, .bw])) := by
  cases r <;> simp [State.holds, isSome_get_set]

theorem holds_set_z_cy : State.holds { s with z := s.z.set k (some v), cy := some c } r =
    (s.holds r || decide (r ∈ [.z k, .cy])) := by
  cases r <;> simp [State.holds, isSome_get_set]

theorem holds_set_m : State.holds { s with m := s.m.set k (some v) } r = (s.holds r || decide (r ∈ [.m k])) := by
  cases r <;> simp [State.holds, isSome_get_set]

theorem holds_set_mask : State.holds { s with mask := some v } r = (s.holds r || decide (r ∈ [.mask])) := by
  cases r <;> simp [State.holds]

theorem holds_advance (e : Event) : (s.advance e).holds r = s.holds r := by
  cases r <;> rfl

theorem holds_finish : (s.finish c).holds r = (s.holds r && !r.isTransient) := by
  cases r <;> simp [State.holds, Reg.isTransient]

end

/-- The close of a micro-operation but `BR` and `END`, after it wrote its registers. -/
theorem ControlEffect.advance {s' : State} {e : Event} (hi : i ≠ .endOp) (he : takenEvent i = some e)
    (ho : s'.op = s.op) (hu : s'.upc = s.upc) (ht : s'.trace = s.trace)
    (hw : ∀ r, s'.holds r = (s.holds r || decide (r ∈ writtenRegs i))) : ControlEffect i s (s'.advance e) where
  op := ho
  upc := by rw [State.advance_upc, hu, if_neg hi]
  trace := by rw [State.advance_trace, ht, he, Option.toList_some]
  holds r := by rw [holds_advance, hw, heldAfter, if_neg hi]

theorem exec_controlEffect (hi : isMicroOp i = true) (hbr : i ≠ .br) (h : exec i s = .next t) : ControlEffect i s t := by
  cases i with
  | subct => cases hi
  | bchain => cases hi
  | cmadd => cases hi
  | subbr => cases hi
  | sbb k => obtain ⟨a, b, c, -, -, -, rfl⟩ := execSbb_inv h; exact .advance nofun rfl rfl rfl rfl holds_set_z_bw
  | b2m => obtain ⟨o, f, -, -, rfl⟩ := execB2m_inv h; exact .advance nofun rfl rfl rfl rfl holds_set_mask
  | and k => obtain ⟨v, -, rfl⟩ := execAnd_inv h; exact .advance nofun rfl rfl rfl rfl holds_set_m
  | adc k => obtain ⟨o, a, b, c, -, -, -, -, rfl⟩ := execAdc_inv h; exact .advance nofun rfl rfl rfl rfl holds_set_z_cy
  | adcp k => obtain ⟨a, c, -, -, rfl⟩ := execAdcp_inv h; exact .advance nofun rfl rfl rfl rfl holds_set_z_cy
  | br => exact absurd rfl hbr
  | endOp => obtain ⟨o, f, -, -, -, rfl⟩ := execEnd_inv h; exact ⟨rfl, rfl, rfl, holds_finish⟩

/-- Which registers a micro-operation reads depends on `OP` alone. -/
theorem operandRegs_congr (h : s.op = t.op) : operandRegs i s = operandRegs i t := by
  cases i <;> simp only [operandRegs, h]

/-- Settles O37: the second state runs because it holds the registers the first one was found to hold, and both do to control
what `ControlEffect` says. -/
theorem limbStepsIgnoreDataValues : Obligations.LimbStepsIgnoreDataValues := by
  intro i s t s' hi hbr hop hupc htrace hholds hs
  obtain ⟨hrun, -⟩ := exec_stopsExactlyOn_operandRegs hi t
  obtain ⟨-, hstop⟩ := exec_stopsExactlyOn_operandRegs hi s
  have hheld : ∀ r ∈ operandRegs i t, t.holds r = true := by
    intro r hr
    rw [← hholds r]
    by_contra hn
    obtain ⟨q, -, -, hf⟩ := hstop ⟨r, operandRegs_congr hop ▸ hr, by simpa using hn⟩
    simp [hs] at hf
  obtain ⟨t', ht⟩ := hrun hheld
  have es := exec_controlEffect hi hbr hs
  have et := exec_controlEffect hi hbr ht
  refine ⟨t', ht, ?_, ?_, ?_, fun r => ?_⟩
  · rw [es.op, et.op, hop]
  · rw [es.upc, et.upc, hupc]
  · rw [es.trace, et.trace, htrace]
  · rw [es.holds, et.holds, hholds]

end Sys2Proof.Machine
end

section
/-! PROOFS. The units at the function level and between ports (41_borrow_propagate_chain.md R67, R69,
42_conditional_modadd_bitmask.md R77, 43_modular_subtract_const_time.md R78): what `bchain_loses_nothing` and
`addChain_loses_nothing` give modulo `2 ^ 256`. -/

namespace Sys2Proof.Machine

/-- A 4-limb value less itself is zero, without a borrow. -/
theorem bchain_self (x : Quad Limb) : bchain x x = (Quad.fill 0#64, false) := by
  have hborrow : (bchain x x).2 = false := by rw [borrow_eq_decide_lt, decide_eq_false (lt_irrefl _)]
  have hloss := bchain_loses_nothing x x
  rw [hborrow, Bool.toNat_false] at hloss
  have hval : val (bchain x x).1 = val (Quad.fill 0#64) := by
    rw [show val (Quad.fill 0#64) = 0 from rfl]
    omega
  exact Prod.ext (val_injective _ _ hval) hborrow

/-- Settles O12: the identity is `bchain_loses_nothing`; the rest follows from it by the ranges of the operands and the
difference. -/
theorem borrowChainValue : Obligations.BorrowChainValue := by
  intro x y d f
  have hloss : val x + f.toNat * 2 ^ 256 = val d + val y := bchain_loses_nothing x y
  have hlt : f = true ↔ val x < val y := by simp [f, borrow_eq_decide_lt]
  have hd := val_lt d
  have hy := val_lt y
  refine ⟨by omega, by omega, hlt, fun hf => ?_, fun hf => ?_, bchain_self x⟩
  · rw [hf, Bool.toNat_false] at hloss
    omega
  · rw [hf, Bool.toNat_true] at hloss
    omega

/-- The add-back of modulus `q` adds it where the flag is 1, modulo `2 ^ 256` (R73). -/
theorem val_cmaddWith (q d : Quad Limb) (f : Bool) :
    val (cmaddWith q d f) = (val d + f.toNat * val q) % 2 ^ 256 := by
  have hloss := addChain_loses_nothing d (maskedBy q f)
  have hz := val_lt (addChain d (maskedBy q f)).1
  have hmask : val (maskedBy q f) = f.toNat * val q := by
    cases f with
    | false => rw [maskedBy_false, Bool.toNat_false, Nat.zero_mul]; rfl
    | true => rw [maskedBy_true, Bool.toNat_true, Nat.one_mul]
  rw [cmaddWith, cmaddCarryWith, ← hmask, hloss, Nat.add_mul_mod_self_right, Nat.mod_eq_of_lt hz]

/-- R69: the first unit is the machine subtraction of its ports and their comparison. -/
theorem borrowPropagateChain_eq (x y : Wide) : borrowPropagateChain x y = (x - y, decide (x < y)) := by
  have hloss := bchain_loses_nothing (ofPort x) (ofPort y)
  have hd := val_lt (bchain (ofPort x) (ofPort y)).1
  have hy := y.isLt
  rw [val_ofPort, val_ofPort] at hloss
  refine Prod.ext (BitVec.eq_of_toNat_eq ?_) ?_
  · rw [borrowPropagateChain, toNat_toPort, BitVec.toNat_sub]
    omega
  · rw [borrowPropagateChain, borrow_eq_decide_lt, val_ofPort, val_ofPort]
    rfl

/-- R77: the second unit adds `p` to its port where its flag is 1. -/
theorem conditionalModaddBitmask_eq (d : Wide) (f : Bool) :
    conditionalModaddBitmask d f = if f then d + BitVec.ofNat 256 Config.p else d := by
  refine BitVec.eq_of_toNat_eq ?_
  rw [conditionalModaddBitmask, toNat_toPort, cmadd, val_cmaddWith, val_ofPort, val_modulus]
  cases f with
  | false => rw [Bool.toNat_false, Nat.zero_mul, Nat.add_zero, Nat.mod_eq_of_lt d.isLt]; rfl
  | true => rw [if_pos rfl, Bool.toNat_true, Nat.one_mul, BitVec.toNat_add, BitVec.toNat_ofNat, Nat.add_mod_mod]

/-- R78: between the two units a port carries the limbs of the partial difference. -/
theorem modularSubtractConstTime_eq_toPort (x y : Wide) :
    modularSubtractConstTime x y = toPort (subCt (ofPort x) (ofPort y)) := by
  rw [modularSubtractConstTime, borrowPropagateChain, conditionalModaddBitmask, ofPort_toPort]
  rfl

/-- Settles O24: the top module by the equations of its two units. -/
theorem modulesComposeToTheTopUnit : Obligations.ModulesComposeToTheTopUnit := by
  intro x y d f
  refine ⟨modularSubtractConstTime_eq_toPort x y, borrowPropagateChain_eq x y, conditionalModaddBitmask_eq d f, ?_⟩
  simp only [modularSubtractConstTime, borrowPropagateChain_eq, conditionalModaddBitmask_eq, decide_eq_true_iff]

end Sys2Proof.Machine
end

section
/-! PROOFS. Whole commands (41_borrow_propagate_chain.md R68, 45_properties.md R98): what the host drives while a command is
in flight is no part of what its steps do, and so a command comes to the result it has under a quiet host. -/

namespace Sys2Proof.Machine

variable {s t u : State} {o : Op} {i : Instr} {n : Nat}

/-! ## The steps of a command under any host that does not reset (R122) -/

/-- The state with `l` as what the host will drive. -/
def State.driven (s : State) (l : List PortsIn) : State := { s with inputs := l }

theorem exec_br_of_value {c : Bool} (hc : s.bw = some c) :
    exec .br s = .next { s.emit (.br c) with upc := if c then 5#4 else 9#4 } := by
  simp only [exec, execBr, hc, readReg_some]

/-- What the host drives next is no part of what a micro-operation does. -/
theorem exec_driven (hi : isMicroOp i = true) (l : List PortsIn) (h : exec i s = .next t) :
    exec i (s.driven l) = .next (t.driven l) := by
  cases i with
  | subct => cases hi
  | bchain => cases hi
  | cmadd => cases hi
  | subbr => cases hi
  | sbb k => obtain ⟨a, b, c, ha, hb, hc, rfl⟩ := execSbb_inv h; exact exec_sbb_of_values ha hb hc
  | b2m =>
    obtain ⟨o, f, ho, hf, rfl⟩ := execB2m_inv h
    exact exec_b2m_of_values ho (fun hc => by rwa [if_pos hc] at hf) (fun hc => by rwa [if_neg hc] at hf)
  | and k => obtain ⟨v, hv, rfl⟩ := execAnd_inv h; exact exec_and_of_values hv
  | adc k =>
    obtain ⟨o, a, b, c, ho, ha, hb, hc, rfl⟩ := execAdc_inv h
    exact exec_adc_of_values ho (fun hm => by rwa [if_pos hm] at ha) (fun hm => by rwa [if_neg hm] at ha) hb hc
  | adcp k => obtain ⟨a, c, ha, hc, rfl⟩ := execAdcp_inv h; exact exec_adcp_of_values ha hc
  | br => obtain ⟨c, hc, rfl⟩ := execBr_inv h; exact exec_br_of_value hc
  | endOp => obtain ⟨o, f, ho, hb, hf, rfl⟩ := execEnd_inv h; exact exec_endOp_of_values ho hb hf

/-- A step of a command in flight under a quiet host is the step under any host that does not reset; it leaves `OP` and adds
one event. -/
theorem InFlight.step_driven {l : List PortsIn} (h : InFlight o s) (hq : s.inputs = []) (hs : step s = .next t)
    (hr : (s.driven l).ports.rst = false) :
    step (s.driven l) = .next (t.driven l.tail) ∧ t.op = some o ∧ t.trace.length = s.trace.length + 1 := by
  have hquiet : s.ports.rst = false := by rw [ports_of_quiet hq]; rfl
  obtain ⟨i, hl⟩ := exists_lookup_of_le h.progress.le
  have hi := isMicroOp_of_lookup hl
  rw [step_of_busy hquiet h.busy h.op hl, tick_of_quiet hq] at hs
  obtain ⟨-, -, hop, -, -, ⟨e, htrace⟩, -⟩ := microOpsKeepOperands i s t hi hs
  refine ⟨?_, hop.trans h.op, by rw [htrace, List.length_append, List.length_singleton]⟩
  exact (step_of_busy hr h.busy h.op hl).trans (exec_driven hi l.tail hs :)

/-- A block that is `n` steps before the result of command `o`, `t` being the state in which it stands and its trace being
as much shorter, so that the command is in flight until then. -/
structure Towards (o : Op) (t : State) (n : Nat) (s : State) : Prop extends EndsAs t n s where
  op : s.op = some o
  trace : s.trace.length + n = t.trace.length

theorem Towards.inFlight (h : Towards o t (n + 1) s) : InFlight o s := by
  cases hb : s.busy with
  | false =>
    have htrace := h.trace
    rw [h.eq_of_idle hb] at htrace
    omega
  | true =>
    obtain ⟨o', hs⟩ := inFlight_of_busy h.inv hb
    rwa [Option.some.inj (h.op.symm.trans hs.op)]

theorem Towards.step_driven {l : List PortsIn} (h : Towards o t (n + 1) s) (hr : (s.driven l).ports.rst = false) :
    ∃ u, step (s.driven l) = .next (u.driven l.tail) ∧ Towards o t n u := by
  obtain ⟨u, hu, hn⟩ := steps_succ_inv h.steps
  obtain ⟨hstep, hop, hlen⟩ := h.inFlight.step_driven h.quiet hu hr
  have htrace := h.trace
  refine ⟨u, hstep, ⟨invariantKeptByEveryStep s u h.inv hu, ?_, hn⟩, hop, by omega⟩
  rw [step_inputs hu, h.quiet, List.tail_nil]

/-- Under any host that does not reset, a command goes on as under a quiet one, each step using up one port value. -/
theorem Towards.steps_driven (k : Nat) {l : List PortsIn} (h : Towards o t (n + k) s)
    (hr : ∀ p ∈ l.take k, p.rst = false) :
    ∃ u, steps k (s.driven l) = .next (u.driven (l.drop k)) ∧ Towards o t n u := by
  induction k generalizing s l with
  | zero => exact ⟨s, rfl, h⟩
  | succ k ih =>
    obtain ⟨hnow, hlater⟩ := ports_of_take (s.driven l) k hr
    obtain ⟨v, hv, hvn⟩ := Towards.step_driven (n := n + k) h hnow
    obtain ⟨u, hu, hun⟩ := ih (l := l.tail) hvn hlater
    exact ⟨u, by rw [steps_succ k hv, hu, List.drop_tail], hun⟩

/-! ## From the request to the result (R98) -/

theorem commandTrace_length (o : Op) (b : Bool) : (commandTrace o b).length = commandSteps o b := by
  cases o <;> cases b <;> rfl

theorem step_request {x y : Wide} {fin : Bool} {rest : List PortsIn} (hb : s.busy = false)
    (hi : s.inputs = PortsIn.request o x y fin :: rest) :
    step s = .next ((issued o (ofPort x) (ofPort y) fin).driven rest) := by
  have hp := s.ports_cons _ _ hi
  rw [step_of_request (by rw [hp]; rfl) hb (by rw [hp]; rfl), hp, issue_of_idle _ _ _ _ s.tick hb]
  simp only [PortsIn.request, Op.ofBits_bits, State.tick, hi]
  rfl

/-- A command just issued is as many steps before its result as R128 counts. -/
theorem towards_finished (o : Op) (x y : Wide) (fin : Bool) :
    Towards o (finished o (ofPort x) (ofPort y) fin) (commandSteps o (decide (val (ofPort x) < val (ofPort y))))
      (issued o (ofPort x) (ofPort y) fin) := by
  have hissued : InFlight o (issued o (ofPort x) (ofPort y) fin) :=
    inFlight_of_issue (s := State.reset) rfl (issue_of_idle o x y fin State.reset rfl)
  rw [← borrow_eq_decide_lt]
  exact ⟨⟨hissued.inv, rfl, steps_issued_finished ..⟩, rfl, (Nat.zero_add _).trans (commandTrace_length ..).symm⟩

/-- R17, R87: a command without `B2M` never gives `MASK` or `M` a value. -/
theorem InFlight.unmasked (h : InFlight o s) (ho : o = .bchain ∨ o = .subbr) : s.mask = none ∧ s.m = Quad.fill none := by
  have hplace : maskPlace o = 14 := by rcases ho with rfl | rfl <;> rfl
  have hle := h.progress.le.trans (endPlace_le o)
  have hmask := h.progress.mask
  rw [decide_eq_false (by omega)] at hmask
  exact ⟨Option.not_isSome_iff_eq_none.mp (by simp [hmask]), (filledUpTo_of_le (by omega)).mp h.progress.m⟩

/-- R98: every command comes to its result, as it does under a quiet host. -/
theorem runsToResult (o : Op) : RunsToResult o := by
  intro s x y fin rest hb hi borrow n hr
  have hstart := step_request hb hi
  have htowards : Towards o (finished o (ofPort x) (ofPort y) fin) n (issued o (ofPort x) (ofPort y) fin) :=
    towards_finished o x y fin
  refine ⟨fun k hk => ?_, ?_⟩
  · obtain ⟨j, hj⟩ : ∃ j, n = j + 1 + k := ⟨n - k - 1, by omega⟩
    have hrk : ∀ p ∈ rest.take k, p.rst = false := fun p hp => hr p (List.take_subset_take_left rest hk.le hp)
    obtain ⟨u, hu, huj⟩ := Towards.steps_driven k (hj ▸ htowards) hrk
    have hflight := huj.inFlight
    exact ⟨_, (steps_succ k hstart).trans hu, hflight.busy, hflight.rvalid, hostRead_of_rvalid_false hflight.rvalid,
      hflight.unmasked⟩
  · obtain ⟨u, hu, hu0⟩ := Towards.steps_driven (n := 0) n (by rwa [Nat.zero_add]) hr
    obtain rfl : u = finished o (ofPort x) (ofPort y) fin := Host.Outcome.next.inj hu0.steps
    exact ⟨_, (steps_succ n hstart).trans hu, rfl, rfl, rfl, rfl, rfl, rfl, rfl, rfl, rfl, rfl, rfl, rfl,
      congrArg (commandTrace o) (borrow_eq_decide_lt _ _), rfl⟩

/-- Settles O51. -/
theorem borrowChainCommand : Obligations.BorrowChainCommand :=
  ⟨rfl, rfl, runsToResult .bchain⟩

end Sys2Proof.Machine
end

section
/-! PROOFS. The masked add-back (42_conditional_modadd_bitmask.md R73, R74, R75): its identity with the final carry, which
`addChain_loses_nothing` gives, says when the sum wraps; after a borrow the partial difference is `2 ^ 256` less what the
second operand exceeds the first by. -/

namespace Sys2Proof.Machine

/-- Adding nothing, without a carry in, leaves a limb as it is and gives no carry. -/
@[simp] theorem adc_zero_false (a : Limb) : adc a 0#64 false = (a, false) := by
  have hloss := adc_loses_nothing a 0#64 false
  have ha := a.isLt
  have hcarry : (adc a 0#64 false).2 = false := by
    simp only [adc, BitVec.toNat_ofNat, Bool.toNat_false, decide_eq_false_iff_not]
    omega
  rw [hcarry, Bool.toNat_false, Nat.zero_mul] at hloss
  exact Prod.ext (BitVec.eq_of_toNat_eq hloss.symm) hcarry

theorem val_maskedBy (q : Quad Limb) (f : Bool) : val (maskedBy q f) = f.toNat * val q := by
  cases f with
  | false => rw [maskedBy_false, Bool.toNat_false, Nat.zero_mul]; rfl
  | true => rw [maskedBy_true, Bool.toNat_true, Nat.one_mul]

/-- The masked add-back of modulus `q` loses nothing: what the 256 bits cannot hold is in the final carry (R73). -/
theorem cmaddCarryWith_loses_nothing (q d : Quad Limb) (f : Bool) :
    val d + f.toNat * val q = val (cmaddCarryWith q d f).1 + (cmaddCarryWith q d f).2.toNat * 2 ^ 256 := by
  rw [← val_maskedBy]
  exact addChain_loses_nothing d (maskedBy q f)

/-- With the flag 0 every limb adds nothing, so the chain changes nothing and gives no carry (R73). -/
@[simp] theorem cmaddCarryWith_false (q d : Quad Limb) : cmaddCarryWith q d false = (d, false) := by
  simp [cmaddCarryWith, addChain, Quad.fill]

/-- With the flag 1, a sum that fits is the result, without a carry (R73). -/
theorem cmaddCarryWith_true_of_lt {q d : Quad Limb} (h : val d + val q < 2 ^ 256) :
    val (cmaddCarryWith q d true).1 = val d + val q ∧ (cmaddCarryWith q d true).2 = false := by
  have hloss := cmaddCarryWith_loses_nothing q d true
  rw [Bool.toNat_true, Nat.one_mul] at hloss
  have hcarry : (cmaddCarryWith q d true).2.toNat = 0 := by omega
  exact ⟨by omega, Bool.toNat_eq_zero.mp hcarry⟩

/-- With the flag 1, a sum that does not fit is `2 ^ 256` above the result, and the carry says so (R73). -/
theorem cmaddCarryWith_true_of_le {q d : Quad Limb} (h : 2 ^ 256 ≤ val d + val q) :
    val (cmaddCarryWith q d true).1 + 2 ^ 256 = val d + val q ∧ (cmaddCarryWith q d true).2 = true := by
  have hloss := cmaddCarryWith_loses_nothing q d true
  have hz := val_lt (cmaddCarryWith q d true).1
  rw [Bool.toNat_true, Nat.one_mul] at hloss
  have hle := Bool.toNat_le (cmaddCarryWith q d true).2
  have hcarry : (cmaddCarryWith q d true).2.toNat = 1 := by omega
  exact ⟨by omega, Bool.toNat_eq_one.mp hcarry⟩

/-- Settles O13: the identity of the add-back, then the flag 0, the sum that fits and the sum that does not. -/
theorem maskedAddBackValue : Obligations.MaskedAddBackValue := by
  intro d f z c4
  have hloss : val d + f.toNat * Config.p = val z + c4.toNat * 2 ^ 256 :=
    val_modulus ▸ cmaddCarryWith_loses_nothing Config.modulus d f
  have hvalue : val z = (val d + f.toNat * Config.p) % 2 ^ 256 := val_modulus ▸ val_cmaddWith Config.modulus d f
  refine ⟨hloss, hvalue, ?_, ?_, ?_⟩
  · rintro rfl
    have hzero := cmaddCarryWith_false Config.modulus d
    exact ⟨congrArg Prod.fst hzero, congrArg Prod.snd hzero, fun i => by simp⟩
  · rintro rfl hfits
    exact val_modulus ▸ cmaddCarryWith_true_of_lt (val_modulus.symm ▸ hfits)
  · rintro rfl hwraps
    exact val_modulus ▸ cmaddCarryWith_true_of_le (val_modulus.symm ▸ hwraps)

/-- With a borrow the chain's difference is `2 ^ 256` less what `y` exceeds `x` by (R67). -/
theorem bchain_of_lt {x y : Quad Limb} (h : val x < val y) :
    (bchain x y).2 = true ∧ val (bchain x y).1 + (val y - val x) = 2 ^ 256 := by
  have hborrow : (bchain x y).2 = true := by rw [borrow_eq_decide_lt, decide_eq_true h]
  have hloss := bchain_loses_nothing x y
  rw [hborrow, Bool.toNat_true] at hloss
  exact ⟨hborrow, by omega⟩

/-- Adding the modulus to zero gives the modulus, which fits (R75). -/
theorem cmaddCarryWith_zero_true (q : Quad Limb) : cmaddCarryWith q (Quad.fill 0#64) true = (q, false) := by
  have hzero : val (Quad.fill 0#64) = 0 := rfl
  have hq := val_lt q
  obtain ⟨hval, hcarry⟩ := cmaddCarryWith_true_of_lt (q := q) (d := Quad.fill 0#64) (by omega)
  rw [hzero, Nat.zero_add] at hval
  exact Prod.ext (val_injective _ _ hval) hcarry

/-- Settles O14: after a borrow the sum `2 ^ 256 - (val y - val x) + p` wraps exactly when `val y - val x` is at most `p`. -/
theorem finalCarryOfTheAddBack : Obligations.FinalCarryOfTheAddBack := by
  refine ⟨fun x y hxy => ?_, fun d => by rw [cmaddCarryWith_false], cmaddCarryWith_zero_true Config.modulus⟩
  obtain ⟨hborrow, hd⟩ := bchain_of_lt hxy
  rw [hborrow]
  intro c
  have hp : val Config.modulus = Config.p := val_modulus
  rcases Nat.lt_or_ge Config.p (val y - val x) with hgap | hgap
  · obtain ⟨hval, hcarry⟩ : val c.1 = _ ∧ c.2 = false :=
      cmaddCarryWith_true_of_lt (q := Config.modulus) (d := (bchain x y).1) (by omega)
    rw [hcarry]
    exact ⟨iff_of_false Bool.false_ne_true (Nat.not_le.mpr hgap), by omega, by omega, by omega⟩
  · obtain ⟨hval, hcarry⟩ : val c.1 + _ = _ ∧ c.2 = true :=
      cmaddCarryWith_true_of_le (q := Config.modulus) (d := (bchain x y).1) (by omega)
    rw [hcarry]
    exact ⟨iff_of_true rfl hgap, by omega, by omega, fun _ => rfl⟩

/-- Settles O52. -/
theorem maskedAddBackCommand : Obligations.MaskedAddBackCommand :=
  ⟨rfl, rfl, runsToResult .cmadd⟩

end Sys2Proof.Machine
end

section
/-! PROOFS. The value of the constant-time subtraction (43_modular_subtract_const_time.md R80, R82): without a borrow the raw
difference, and with one what `finalCarryOfTheAddBack` says of the add-back. -/

namespace Sys2Proof.Machine

/-- Without a borrow the chain's difference is the difference of the operands (R67). -/
theorem bchain_of_le {x y : Quad Limb} (h : val y ≤ val x) :
    (bchain x y).2 = false ∧ val (bchain x y).1 + val y = val x := by
  have hborrow : (bchain x y).2 = false := by rw [borrow_eq_decide_lt, decide_eq_false (Nat.not_lt.mpr h)]
  have hloss := bchain_loses_nothing x y
  rw [hborrow, Bool.toNat_false] at hloss
  exact ⟨hborrow, by omega⟩

/-- Without a borrow nothing is added back: the result is the chain's difference, and there is no final carry (R80). -/
theorem cmaddCarryWith_bchain_of_le {x y : Quad Limb} (q : Quad Limb) (h : val y ≤ val x) :
    cmaddCarryWith q (bchain x y).1 (bchain x y).2 = ((bchain x y).1, false) := by
  rw [(bchain_of_le h).1, cmaddCarryWith_false]

/-- Settles O15: the three lines of the table, from which the formula follows, each value being that of the formula brought
into the range of 256 bits. -/
theorem constantTimeSubtractValue : Obligations.ConstantTimeSubtractValue := by
  intro x y z borrow carry
  have hz := val_lt z
  have hle (hyx : val y ≤ val x) : borrow = false ∧ carry = false ∧ (val z : Int) = (val x : Int) - val y := by
    obtain ⟨hborrow, hd⟩ := bchain_of_le hyx
    have hadd := cmaddCarryWith_bchain_of_le Config.modulus hyx
    have hval : val z = val (bchain x y).1 := congrArg (val ·.1) hadd
    exact ⟨hborrow, congrArg Prod.snd hadd, by omega⟩
  have hnear (hxy : val x < val y) (hgap : val y - val x ≤ Config.p) :
      borrow = true ∧ carry = true ∧ val z + (val y - val x) = Config.p ∧ val z < Config.p := by
    obtain ⟨hcarry, hval, -, -⟩ := finalCarryOfTheAddBack.1 x y hxy
    exact ⟨(bchain_of_lt hxy).1, hcarry.mpr hgap, hval hgap⟩
  have hfar (hxy : val x < val y) (hgap : Config.p < val y - val x) :
      borrow = true ∧ carry = false ∧ val z + (val y - val x) = 2 ^ 256 + Config.p ∧ Config.p + 1 ≤ val z := by
    obtain ⟨hcarry, -, hval, -⟩ := finalCarryOfTheAddBack.1 x y hxy
    have hsum : val z + (val y - val x) = 2 ^ 256 + Config.p := (hval hgap).1
    have hy := val_lt y
    exact ⟨(bchain_of_lt hxy).1, Bool.eq_false_iff.mpr (mt hcarry.mp (Nat.not_le.mpr hgap)), hsum, by omega⟩
  refine ⟨?_, hle, hnear, hfar⟩
  split
  case isTrue hxy =>
    rcases Nat.lt_or_ge Config.p (val y - val x) with hgap | hgap
    · obtain ⟨-, -, hval, -⟩ := hfar hxy hgap
      omega
    · obtain ⟨-, -, hval, -⟩ := hnear hxy hgap
      omega
  case isFalse hxy =>
    obtain ⟨-, -, hval⟩ := hle (Nat.not_lt.mp hxy)
    omega

/-- `p` is odd, so that adding `2 ^ 256` changes the residue. -/
theorem p_not_dvd_two_pow : ¬ (Config.p : Int) ∣ 2 ^ 256 := by decide

/-- Settles O21: the three lines of R80 one by one. Without a borrow the result is the difference; with one, the difference
plus `p`, or that plus `2 ^ 256`, which `p` does not divide. -/
theorem nonCanonicalOperands : Obligations.NonCanonicalOperands := by
  refine ⟨fun x y => ?_, by decide, by decide, by decide⟩
  intro dif z
  obtain ⟨-, hle, hnear, hfar⟩ := constantTimeSubtractValue x y
  rcases Nat.lt_or_ge (val x) (val y) with hxy | hyx
  · rcases Nat.lt_or_ge Config.p (val y - val x) with hgap | hgap
    · obtain ⟨-, -, hsum, hp⟩ : _ ∧ _ ∧ val z + _ = _ ∧ _ ≤ val z := hfar hxy hgap
      have hval : (val z : Int) = dif + Config.p + 2 ^ 256 := by omega
      have hmod : ¬ (val z : Int) ≡ dif [ZMOD Config.p] := fun h => p_not_dvd_two_pow <| by
        have hdvd := dvd_sub h.symm.dvd (dvd_refl (Config.p : Int))
        rwa [show (val z : Int) - dif - Config.p = 2 ^ 256 by omega] at hdvd
      exact ⟨iff_of_false (fun h => hmod h.2) (by omega), by omega, fun _ => ⟨hval, by omega, hmod⟩⟩
    · obtain ⟨-, -, hsum, hlt⟩ : _ ∧ _ ∧ val z + _ = _ ∧ val z < _ := hnear hxy hgap
      have hval : (val z : Int) = dif + Config.p := by omega
      have hmod : (val z : Int) ≡ dif [ZMOD Config.p] := hval ▸ Int.add_modEq_right
      exact ⟨iff_of_true ⟨hlt, hmod⟩ (by omega), by omega, by omega⟩
  · obtain ⟨-, -, hval⟩ : _ ∧ _ ∧ (val z : Int) = dif := hle hyx
    have hmod : (val z : Int) ≡ dif [ZMOD Config.p] := congrArg (· % (Config.p : Int)) hval
    exact ⟨⟨fun ⟨hlt, _⟩ => by omega, fun _ => ⟨by omega, hmod⟩⟩, fun _ => ⟨hval, by omega⟩, by omega⟩

end Sys2Proof.Machine
end

section
/-! PROOFS. An observer of control flow and ROM accesses (43_modular_subtract_const_time.md R83, 45_properties.md R97): what
each move does to what is observed depends on nothing else, `BR` apart. -/

namespace Sys2Proof.Machine

variable {a b a' b' : State} {o : Op} {i : Instr}

/-- The coming control inputs are alike now and later on. -/
theorem LowEq.ports (h : LowEq a b) : a.ports.control = b.ports.control := by
  obtain ⟨-, -, -, -, -, hin⟩ := h
  simp only [State.ports, ← List.headD_map (f := PortsIn.control), hin]

theorem LowEq.tick (h : LowEq a b) : LowEq a.tick b.tick := by
  obtain ⟨hbusy, hrv, hupc, hop, htrace, hin⟩ := h
  refine ⟨hbusy, hrv, hupc, hop, htrace, ?_⟩
  rw [State.tick_inputs, State.tick_inputs, List.map_tail, List.map_tail, hin]

theorem LowEq.resetMove (h : LowEq a b) : LowEq a.resetMove b.resetMove := by
  obtain ⟨-, -, -, -, -, hin⟩ := h
  exact ⟨rfl, rfl, rfl, rfl, rfl, hin⟩

/-- An issue shows its command and no operand. -/
theorem LowEq.issue {x y x' y' : Wide} {fin fin' : Bool} (h : LowEq a b) (hb : a.busy = false)
    (ha' : Machine.issue o x y fin a = .next a') (hb' : Machine.issue o x' y' fin' b = .next b') : LowEq a' b' := by
  obtain ⟨hbusy, -, -, -, -, hin⟩ := h
  rw [issue_of_idle _ _ _ _ _ hb] at ha'
  rw [issue_of_idle _ _ _ _ _ (hbusy ▸ hb)] at hb'
  cases ha'
  cases hb'
  exact ⟨rfl, rfl, rfl, rfl, rfl, hin⟩

/-- `END` frees the block and shows the result; the other micro-operations keep the status (R18, R63). -/
theorem exec_status (hi : isMicroOp i = true) (h : exec i a = .next a') :
    a'.busy = (if i = .endOp then false else a.busy) ∧ a'.rvalid = (if i = .endOp then true else a.rvalid) := by
  split
  case isTrue hend =>
    subst hend
    obtain ⟨o, f, -, -, -, rfl⟩ := execEnd_inv h
    exact ⟨rfl, rfl⟩
  case isFalse hend =>
    obtain ⟨-, hbusy, hrv, -⟩ := exec_keeps hi hend h
    exact ⟨hbusy, hrv⟩

/-- A micro-operation but `BR` shows nothing of the data (R65). -/
theorem LowEq.exec (h : LowEq a b) (hi : isMicroOp i = true) (hbr : i ≠ .br) (ha' : Machine.exec i a = .next a')
    (hb' : Machine.exec i b = .next b') : LowEq a' b' := by
  obtain ⟨hbusy, hrv, hupc, hop, htrace, hin⟩ := h
  have ea := exec_controlEffect hi hbr ha'
  have eb := exec_controlEffect hi hbr hb'
  obtain ⟨hbusya, hrva⟩ := exec_status hi ha'
  obtain ⟨hbusyb, hrvb⟩ := exec_status hi hb'
  obtain ⟨-, -, -, -, hina, -⟩ := microOpsKeepOperands i a a' hi ha'
  obtain ⟨-, -, -, -, hinb, -⟩ := microOpsKeepOperands i b b' hi hb'
  refine ⟨?_, ?_, ?_, ?_, ?_, ?_⟩
  · rw [hbusya, hbusyb, hbusy]
  · rw [hrva, hrvb, hrv]
  · rw [ea.upc, eb.upc, hupc]
  · rw [ea.op, eb.op, hop]
  · rw [ea.trace, eb.trace, htrace]
  · rw [hina, hinb, hin]

/-- Two states that are alike make the same move, and it leaves them alike unless it is the branch of `SUBBR`. -/
theorem LowEq.step (h : LowEq a b) (hop : a.busy = true → a.op ≠ some .subbr) (ha' : Machine.step a = .next a')
    (hb' : Machine.step b = .next b') : LowEq a' b' := by
  have htick := h.tick
  obtain ⟨hrst, hvalid, hreq⟩ : a.ports.rst = b.ports.rst ∧ a.ports.reqValid = b.ports.reqValid ∧
      a.ports.reqOp = b.ports.reqOp := by simpa [PortsIn.control] using h.ports
  obtain ⟨hbusy, -, hupc, hopEq, -, -⟩ := h
  rcases step_cases ha' with ⟨hr, rfl⟩ | ⟨hr, hb, o, i, ho, hl, he⟩ | ⟨hr, hb, hv, he⟩ | ⟨hr, hb, hv, rfl⟩
  · rw [step_of_reset (hrst ▸ hr)] at hb'
    cases hb'
    exact htick.resetMove
  · rw [step_of_busy (hrst ▸ hr) (hbusy ▸ hb) (hopEq ▸ ho) (hupc ▸ hl)] at hb'
    have hbr : i ≠ .br := by
      rintro rfl
      exact hop hb (ho.trans (congrArg some (place_of_br hl).1))
    exact htick.exec (isMicroOp_of_lookup hl) hbr he hb'
  · rw [step_of_request (hrst ▸ hr) (hbusy ▸ hb) (hvalid ▸ hv), ← hreq] at hb'
    exact htick.issue hb he hb'
  · rw [step_of_idle (hrst ▸ hr) (hbusy ▸ hb) (hvalid ▸ hv)] at hb'
    cases hb'
    exact htick

/-- Settles O57: both states have a next one by `stepNeverStops`. -/
theorem constantTimeStepByStep : Obligations.ConstantTimeStepByStep := by
  intro a b ha hb h hop
  obtain ⟨a', ha'⟩ := stepNeverStops a ha
  obtain ⟨b', hb'⟩ := stepNeverStops b hb
  exact ⟨a', b', ha', hb', h.step hop ha' hb'⟩

end Sys2Proof.Machine
end

section
/-! PROOFS. `SUBCT` as a whole command, and as `BCHAIN` followed by `CMADD` (43_modular_subtract_const_time.md R79, R84). -/

namespace Sys2Proof.Machine

/-- Settles O53. -/
theorem constantTimeSubtractCommand : Obligations.ConstantTimeSubtractCommand :=
  ⟨rfl, rfl, runsToResult .subct⟩

/-- Under a host that asks for one command and nothing more, an idle block comes to the state with its result (R98). -/
theorem steps_request_finished {s : State} {o : Op} {x y : Wide} {fin : Bool} (hb : s.busy = false)
    (hi : s.inputs = [PortsIn.request o x y fin]) :
    steps (commandSteps o (bchain (ofPort x) (ofPort y)).2 + 1) s = .next (finished o (ofPort x) (ofPort y) fin) :=
  (steps_succ _ (step_request hb hi)).trans (steps_issued_finished ..)

/-- Settles O59: `sub_ct` is defined as `cmadd` on what `bchain` gives, and a port carries `d` unchanged from the one command to
the other. -/
theorem chainThenAddBackEqualsSubct : Obligations.ChainThenAddBackEqualsSubct := by
  intro s1 s2 s3 x y w fin fin' h1 h2 h3 hi1 hi3
  refine ⟨_, _, _, _, steps_request_finished h1 hi1, finished_hostRead .., steps_request_finished h3 hi3, fun hi2 => ?_⟩
  refine ⟨_, _, steps_request_finished h2 hi2, ?_, finished_hostRead .., rfl⟩
  rw [finished_hostRead, ofPort_toPort]
  rfl

end Sys2Proof.Machine
end

section
/-! PROOFS. The branch of `SUBBR` and the whole command (44_branching_reference.md R86, R87, R88): the one place where a data
flag moves `UPC`. -/

namespace Sys2Proof.Machine

variable {o : Op} {u : BitVec 4} {s : State} {c : Bool}

/-- Settles O54. -/
theorem branchingSubtractCommand : Obligations.BranchingSubtractCommand :=
  ⟨rfl, rfl, runsToResult .subbr⟩

theorem lookup_eq_br_iff : lookup o u = some .br ↔ o = .subbr ∧ u = 4#4 := by
  constructor
  case mp => exact place_of_br
  case mpr =>
    rintro ⟨rfl, rfl⟩
    rfl

/-- Settles O32: where the other micro-operations go is part of their `ControlEffect`. -/
theorem branchStep : Obligations.BranchStep :=
  ⟨⟨(roundTrip .br).1, fun _ _ => lookup_eq_br_iff⟩, fun _ _ hbw => exec_br_of_value hbw,
    fun _ _ _ hi hbr h => (exec_controlEffect hi hbr h).upc⟩

/-- The step of a `SUBBR` in flight at its branch (R86). -/
theorem step_of_branch (hr : s.ports.rst = false) (hb : s.busy = true) (ho : s.op = some .subbr) (hu : s.upc = 4#4)
    (hc : s.bw = some c) : step s = .next { s.tick.emit (.br c) with upc := if c then 5#4 else 9#4 } :=
  (step_of_busy hr hb ho (lookup_eq_br_iff.mpr ⟨rfl, hu⟩)).trans (exec_br_of_value (s := s.tick) hc)

/-- Settles O58: the two traces end with `BR(0)` and `BR(1)`. -/
theorem branchGivesTheBorrowAway : Obligations.BranchGivesTheBorrowAway := by
  intro s hr hb ho hu
  have hstep (c : Bool) := step_of_branch (s := { s with bw := some c }) hr hb ho hu rfl
  refine ⟨_, _, hstep false, hstep true, rfl, rfl, fun htrace => ?_⟩
  have hbr : [Event.br false] = [Event.br true] := List.append_cancel_left htrace
  exact absurd hbr (by decide)

end Sys2Proof.Machine
end

section
/-! PROOFS. The properties of the subtraction (45_properties.md R91 to R96, R99). The two variants, the difference without a
borrow and the value modulo `2 ^ 256` are those of any modulus; only the canonical case turns on `p`. -/

namespace Sys2Proof.Machine

variable {x y : Quad Limb}

/-- With a borrow the mask is all ones and both variants add `q`; without one the masked chain adds nothing (R92, R99). -/
theorem subBrWith_eq_subCtWith (q x y : Quad Limb) : subBrWith q x y = subCtWith q x y := by
  rw [subBrWith, subCtWith, cmaddWith]
  split
  case isTrue hborrow => rw [hborrow, cmaddCarryWith, maskedBy_true]
  case isFalse hborrow => rw [Bool.eq_false_iff.mpr hborrow, cmaddCarryWith_false]

/-- Without a borrow the result is the chain's difference, whatever the modulus (R93, R99). -/
theorem subCtWith_of_le (q : Quad Limb) (h : val y ≤ val x) : subCtWith q x y = (bchain x y).1 := by
  rw [subCtWith, cmaddWith, cmaddCarryWith_bchain_of_le q h]

/-- With a borrow the modulus is added once, in 256 bits, whatever the modulus (R94, R99). -/
theorem val_subCtWith_of_lt (q : Quad Limb) (h : val x < val y) :
    (val (subCtWith q x y) : Int) = ((val x : Int) - val y + val q) % 2 ^ 256 := by
  obtain ⟨hborrow, hd⟩ := bchain_of_lt h
  rw [subCtWith, val_cmaddWith, hborrow, Bool.toNat_true]
  omega

/-- Settles O17. -/
theorem variantsAgree : Obligations.VariantsAgree :=
  subBrWith_eq_subCtWith Config.modulus

/-- Settles O16: the difference of canonical operands lies between `-p` and `p`, where by R82 the result is canonical and
congruent to it. -/
theorem canonicalOperandsGiveFieldDifference : Obligations.CanonicalOperandsGiveFieldDifference := by
  intro x y hx hy
  obtain ⟨hlt, hmod⟩ := (nonCanonicalOperands.1 x y).1.mpr ⟨by omega, by omega⟩
  have hval : (val (subCt x y) : Int) = ((val x : Int) - val y) % Config.p :=
    (Int.emod_eq_of_lt (by omega) (by omega)).symm.trans hmod
  exact ⟨hval, variantsAgree x y ▸ hval, hlt⟩

/-- Settles O18. -/
theorem noBorrowNoAddBack : Obligations.NoBorrowNoAddBack := by
  intro x y h
  obtain ⟨hborrow, hd⟩ := bchain_of_le h
  have hsub : subCt x y = (bchain x y).1 := subCtWith_of_le Config.modulus h
  rw [hsub]
  exact ⟨by omega, Prod.ext rfl hborrow⟩

/-- Settles O19. -/
theorem underflowAddsTheModulusOnce : Obligations.UnderflowAddsTheModulusOnce :=
  fun _ _ h => val_modulus ▸ val_subCtWith_of_lt Config.modulus h

/-- Settles O20: the chain of a value and itself gives zero without a borrow, so nothing is added back; both operands of the
request are what its one port value stands for. -/
theorem equalOperandsGiveZero : Obligations.EqualOperandsGiveZero := by
  refine ⟨fun x => ?_, fun o w fin s hb => ?_⟩
  · have hzero : subCt x x = Quad.fill 0#64 :=
      (subCtWith_of_le Config.modulus le_rfl).trans (congrArg Prod.fst (bchain_self x))
    exact ⟨hzero, (variantsAgree x x).trans hzero, bchain_self x⟩
  · exact ⟨_, (exec_instr o w w fin s).trans (issue_of_idle o w w fin s hb), rfl, rfl⟩

/-- Settles O23: the value is that of `val_subCtWith_of_lt` with a borrow, and the chain's difference without one. -/
theorem anyModulusWillDo : Obligations.AnyModulusWillDo := by
  intro q x y
  refine ⟨?_, subBrWith_eq_subCtWith q x y, subCtWith_of_le q⟩
  split
  case isTrue hxy => exact val_subCtWith_of_lt q hxy
  case isFalse hxy =>
    obtain ⟨-, hd⟩ := bchain_of_le (Nat.not_lt.mp hxy)
    have hx := val_lt x
    rw [subCtWith_of_le q (Nat.not_lt.mp hxy)]
    omega

/-- Settles O22. -/
theorem concreteScenario : Obligations.ConcreteScenario := by
  unfold Obligations.ConcreteScenario
  intro x y z
  have hct : subCt x y = z := by decide
  exact ⟨hct, (variantsAgree x y).trans hct, by decide⟩

end Sys2Proof.Machine
end

section
/-! PROOFS. Constant time over whole commands (45_properties.md R97): an idle block comes to the end of a command with the
command's trace, and only that of `SUBBR` tells whether the chain ended with a borrow. -/

namespace Sys2Proof.Machine

/-- The two traces of `SUBBR` differ at the event of its branch (R97). -/
theorem commandTrace_subbr_inj (b b' : Bool) : commandTrace .subbr b = commandTrace .subbr b' ↔ b = b' := by
  revert b b'
  decide

/-- Under a host that asks for one command and nothing more, an idle block comes to its end with its result and its trace. -/
theorem steps_request_trace {s : State} {o : Op} {x y : Wide} {fin : Bool} (hb : s.busy = false)
    (hi : s.inputs = [PortsIn.request o x y fin]) :
    let lt := decide (val (ofPort x) < val (ofPort y))
    ∃ t, steps (commandSteps o lt + 1) s = .next t ∧ t.rvalid = true ∧ t.trace = commandTrace o lt := by
  rw [← borrow_eq_decide_lt]
  exact ⟨_, steps_request_finished hb hi, rfl, rfl⟩

/-- Settles O56: each trace is the command's own, which for `SUBBR` alone depends on the comparison of the operands. -/
theorem traceIndependentOfOperands : Obligations.TraceIndependentOfOperands := by
  intro o s s' x y x' y' fin fin' hb hb' hi hi' lt lt'
  obtain ⟨t, ht, hv, htrace⟩ := steps_request_trace hb hi
  obtain ⟨t', ht', hv', htrace'⟩ := steps_request_trace hb' hi'
  refine ⟨t, t', ht, ht', hv, hv', fun ho => ?_, fun ho => ?_⟩
  · rw [htrace, htrace', commandTrace_of_ne_subbr ho lt, commandTrace_of_ne_subbr ho lt']
  · subst ho
    rw [htrace, htrace']
    exact commandTrace_subbr_inj lt lt'

end Sys2Proof.Machine
end

section
/-! PROOFS. The idle block (60_exceptions.md R109, R113): while the host asks for nothing, the steps only use up the port
values. -/

namespace Sys2Proof.Machine

/-- What holds of the host's next `k + 1` port values and of quiet ports holds now and of the `k` after. -/
theorem forall_ports_of_take {P : PortsIn → Prop} {s : State} {k : Nat} (hquiet : P PortsIn.quiet)
    (h : ∀ p ∈ s.inputs.take (k + 1), P p) : P s.ports ∧ ∀ p ∈ s.tick.inputs.take k, P p := by
  rw [State.ports, State.tick_inputs]
  cases hi : s.inputs with
  | nil => exact ⟨hquiet, by simp⟩
  | cons q rest => rwa [hi, List.take_succ_cons, List.forall_mem_cons] at h

/-- An idle block whose host asks for nothing in `k` steps only uses up `k` port values. -/
theorem steps_of_unasked {k : Nat} {s : State} (hb : s.busy = false)
    (h : ∀ p ∈ s.inputs.take k, p.rst = false ∧ p.reqValid = false) :
    steps k s = .next { s with inputs := s.inputs.drop k } := by
  induction k generalizing s with
  | zero => rfl
  | succ k ih =>
    obtain ⟨⟨hr, hv⟩, hlater⟩ := forall_ports_of_take (P := fun p => p.rst = false ∧ p.reqValid = false) ⟨rfl, rfl⟩ h
    calc steps (k + 1) s = steps k s.tick := steps_succ k (step_of_idle hr hb hv)
      _ = .next { s with inputs := s.inputs.tail.drop k } := ih hb hlater
      _ = .next { s with inputs := s.inputs.drop (k + 1) } := by rw [List.drop_tail]

/-- Settles O42: a read does not depend on what the host drives. -/
theorem idleBlockHolds : Obligations.IdleBlockHolds :=
  ⟨fun _ _ hb h => ⟨_, steps_of_unasked hb h, rfl, rfl⟩, rfl⟩

end Sys2Proof.Machine
end

section
/-! PROOFS. Issue, reset and the end of a command (70_reset_and_hazards.md R121, R122, R124, R126, R128): what an issue
latches, that a command in flight waits for no request and comes to its result, and that a reset leaves nothing of it. -/

namespace Sys2Proof.Machine

variable {o : Op} {i : Instr} {s t : State}

/-! ## Every command ends (R126) -/

/-- Every micro-operation but `END` moves on to a later place, `BR` in both directions (R19, R86). -/
theorem upc_lt_of_exec (hl : lookup o s.upc = some i) (hne : i ≠ .endOp) (he : exec i s = .next t) :
    s.upc.toNat < t.upc.toNat := by
  by_cases hbr : i = .br
  case pos =>
    subst hbr
    obtain ⟨-, hu⟩ := place_of_br hl
    obtain ⟨taken, -, rfl⟩ := execBr_inv he
    have htaken : (4#4).toNat < (if taken then 5#4 else 9#4 : BitVec 4).toNat := by cases taken <;> decide
    rwa [hu]
  case neg =>
    rw [(exec_controlEffect (isMicroOp_of_lookup hl) hbr he).upc, if_neg hne, toNat_succ_of_lookup hl]
    exact Nat.lt_succ_self _

/-- A micro-operation at its place shows the result, where it is `END`, or takes its command to a later place. -/
theorem InFlight.ends_or_advances (h : InFlight o s) (hl : lookup o s.upc = some i) (he : exec i s = .next t) :
    ResultStands o t ∨ InFlight o t ∧ s.upc.toNat < t.upc.toNat := by
  by_cases hne : i = .endOp
  case pos =>
    subst hne
    exact .inl (h.endOp hl he)
  case neg =>
    obtain ⟨hkeeps, hstatus⟩ := exec_keeps (isMicroOp_of_lookup hl) hne he
    obtain ⟨o', ht⟩ := inFlight_of_busy (h.inv_exec hl he) (hstatus.busy.trans h.busy)
    obtain rfl : o' = o := Option.some.inj (ht.op.symm.trans (hkeeps.op.trans h.op))
    exact .inr ⟨ht, upc_lt_of_exec hl hne he⟩

/-- Unless the host resets, a command in flight comes to its result within as many steps as there are places left, that of
`END` included. -/
theorem InFlight.exists_steps_resultStands {n : Nat} (h : InFlight o s) (hn : endPlace o < s.upc.toNat + n)
    (hr : ∀ p ∈ s.inputs.take n, p.rst = false) : ∃ k t, k ≤ n ∧ steps k s = .next t ∧ ResultStands o t := by
  induction n generalizing s with
  | zero => exact absurd h.progress.le (by omega)
  | succ n ih =>
    obtain ⟨hnow, hlater⟩ := ports_of_take s n hr
    obtain ⟨i, hl⟩ := exists_lookup_of_le h.progress.le
    obtain ⟨u, hu⟩ := h.exists_step hnow
    have he : exec i s.tick = .next u := (step_of_busy hnow h.busy h.op hl).symm.trans hu
    rcases h.tick.ends_or_advances hl he with hend | ⟨hflight, hlt⟩
    · exact ⟨1, u, by omega, steps_succ 0 hu, hend⟩
    · rw [State.tick_upc] at hlt
      rw [State.tick_inputs, ← step_inputs hu] at hlater
      obtain ⟨k, t, hk, hsteps, hend⟩ := ih hflight (by omega) hlater
      exact ⟨k + 1, t, by omega, (steps_succ k hu).trans hsteps, hend⟩

/-- Settles O50: no command has more than the 14 places of `SUBCT`. -/
theorem everyCommandEnds : Obligations.EveryCommandEnds := by
  intro s hs hb hr
  obtain ⟨o, h⟩ := inFlight_of_busy hs hb
  have hplaces := endPlace_le o
  obtain ⟨k, t, hk, hsteps, hend⟩ := h.exists_steps_resultStands (n := 14) (by omega) hr
  exact ⟨k, t, hk, hsteps, hend.busy, hend.rvalid, hend.op.trans h.op.symm⟩

/-! ## Issue and reset (R121, R122, R124) -/

/-- Settles O25: the limbs latched are the port's by `get_ofPort`. -/
theorem issueLatchesTheRequest : Obligations.IssueLatchesTheRequest := by
  refine ⟨fun s hr hb hv => (step_of_request hr hb hv).trans (exec_instr ..).symm, fun o x y fin s hb => ?_⟩
  have hlatch (w : Wide) (i : LimbIx) : ((ofPort w).map some).get i = some (w.extractLsb' (64 * i.val) 64) := by
    rw [Quad.get_map, get_ofPort]
  exact ⟨_, (exec_instr o x y fin s).trans (issue_of_idle o x y fin s hb), rfl, rfl, fun i => ⟨hlatch x i, hlatch y i⟩,
    rfl, rfl, rfl, fun i => ⟨Quad.get_fill none i, Quad.get_fill none i⟩, rfl, rfl, rfl, rfl, rfl, rfl⟩

/-- While a command is in flight the next move depends on no port but `rst` (R122). -/
theorem nextMove_congr_of_busy {p q : PortsIn} (rest : List PortsIn) (hb : s.busy = true) (hr : p.rst = q.rst) :
    nextMove { s with inputs := p :: rest } = nextMove { s with inputs := q :: rest } := by
  simp only [nextMove, State.ports, List.headD_cons, hb, hr, if_true]

/-- Settles O26: the two hosts lead to the same move by `nextMove_congr_of_busy`, made on the same registers. -/
theorem requestWaitsWhileBusy : Obligations.RequestWaitsWhileBusy := by
  refine ⟨fun o x y fin s hb => (exec_instr o x y fin s).trans (issue_of_busy o x y fin s hb),
    fun s p q rest hb hr => ?_⟩
  rw [step, nextMove_congr_of_busy rest hb hr]
  rfl

/-- Settles O40. -/
theorem resetOverridesEverything : Obligations.ResetOverridesEverything :=
  fun _ hr => step_of_reset hr

/-- The reset state stays as it is while no request is presented, whether or not the host resets again. -/
theorem step_reset_of_unrequested {l : List PortsIn} (hv : (State.reset.driven l).ports.reqValid = false) :
    step (State.reset.driven l) = .next (State.reset.driven l.tail) := by
  cases hr : (State.reset.driven l).ports.rst with
  | true => exact step_of_reset hr
  | false => exact step_of_idle hr rfl hv

theorem steps_reset_of_unrequested {k : Nat} {l : List PortsIn} (h : ∀ p ∈ l.take k, p.reqValid = false) :
    steps k (State.reset.driven l) = .next (State.reset.driven (l.drop k)) := by
  induction k generalizing l with
  | zero => rfl
  | succ k ih =>
    obtain ⟨hnow, hlater⟩ := forall_ports_of_take (P := fun p => p.reqValid = false) (s := State.reset.driven l) rfl h
    calc steps (k + 1) (State.reset.driven l) = steps k (State.reset.driven l.tail) :=
          steps_succ k (step_reset_of_unrequested hnow)
      _ = .next (State.reset.driven (l.tail.drop k)) := ih hlater
      _ = .next (State.reset.driven (l.drop (k + 1))) := by rw [List.drop_tail]

/-- Settles O43: the reset leaves the reset state whatever was in flight, and from there no step leaves it. -/
theorem resetAbortsTheCommand : Obligations.ResetAbortsTheCommand := by
  intro k s hr h
  refine ⟨State.reset.driven (s.inputs.drop (k + 1)), ?_, rfl, rfl⟩
  rw [← List.drop_tail]
  exact (steps_succ k (step_of_reset hr)).trans (steps_reset_of_unrequested h)

/-! ## The counts of R128 -/

/-- The borrow chain and each add-back are four limb operations; `BCHAIN`, `CMADD` and a `SUBBR` whose branch is not taken
have one of the two. -/
theorem countP_isLimbOp_commandTrace (o : Op) (b : Bool) : (commandTrace o b).countP Event.isLimbOp =
    match o with
    | .subct => 8
    | .bchain => 4
    | .cmadd => 4
    | .subbr => if b then 8 else 4 := by
  cases o
  case subct => rfl
  case bchain => rfl
  case cmadd => rfl
  case subbr => cases b <;> rfl

/-- Settles O55: the three columns are `commandTrace_length`, `countP_isLimbOp_commandTrace` and `romReads_commandTrace`. -/
theorem stepCounts : Obligations.StepCounts := by
  intro o b
  refine ⟨commandTrace_length o b, ?_⟩
  rw [commandTrace_length, countP_isLimbOp_commandTrace, romReads_commandTrace]
  cases o
  case subct => rfl
  case bchain => rfl
  case cmadd => rfl
  case subbr => cases b <;> rfl

end Sys2Proof.Machine
end
